-- ==== Sys2Proof/Word.lean ====
section
/-! DEFINITION. The word types of the ICU. Every value is unsigned and bit 0 is the least significant
bit (00_scope.md R8); a register is 32 bits wide (10_state.md R21), a byte of the buffer 8 bits
(20_memory.md R40), a checksum and a header's short field 16 bits. -/

namespace Sys2Proof

/-- A register, a data word of a host transaction. -/
abbrev Word := BitVec 32

/-- A 16-bit header field, a checksum. -/
abbrev Half := BitVec 16

/-- One byte of the data buffer. -/
abbrev Byte := BitVec 8

/-- A host byte address (00_scope.md R7: 16 bits). -/
abbrev Addr := BitVec 16

/-- A buffer index as the host transaction carries it, `addr[14:0]` (30_encoding.md R61). -/
abbrev BufIndex := BitVec 15

end Sys2Proof
end

