-- ==== Sys2Proof/Config.lean ====
section
/-! DEFINITION. The implementation parameters of 00_scope.md R7. `BUF_BYTES` is left open between two
bounds: the machine carries its value in `State.bufBytes`, which no step changes, so statements hold
for every allowed size. `BUF_INIT` has no value at all (an unwritten byte reads as nothing,
70_reset_and_hazards.md R192), and no rule depends on `ICU_BASE` (log entries 3, 4, 5). -/

namespace Sys2Proof.Config

/-- The smallest `BUF_BYTES` (R7: `40 <= BUF_BYTES`). -/
def minBufBytes : Nat := 40

/-- The largest `BUF_BYTES` (R7: `BUF_BYTES <= 32768`). -/
def maxBufBytes : Nat := 32768

/-- DESIGN CHOICE (log entry 3): the `BUF_BYTES` of `State.reset` and of `decodeTableWord`, the size that
every vector of 95_test_vectors.md uses. Unsafe where a claim rests on this one size. -/
def bufBytes : Nat := 2048

end Sys2Proof.Config
end

