-- ==== Sys2Proof/Syntax.lean ====
section
/-! DEFINITION. The ICU's registers, the host's bus transactions, and the instructions: one constructor
for each row of spec/opcode_table.json, the five commands and the four transaction kinds
(30_encoding.md R60 to R64). -/

namespace Sys2Proof

/-- The 16 word slots of the register window (10_state.md R21). -/
inductive Reg where
  | cmd | status | result | offset | length | srcAddr | dstAddr | ports | seq | acknum | tcpctl | ipid
  /-- The reserved slots 0x0030, 0x0034, 0x0038 and 0x003C (R34). -/
  | reserved (k : Fin 4)
  deriving DecidableEq, Repr

/-- The direction of a host transaction (30_encoding.md R60). -/
inductive Dir where
  | read | write
  deriving DecidableEq, Repr

/-- The size code of a host transaction (R60): 0, 1, 2 and the reserved code 3. -/
inductive Size where
  | byte | half | word | reserved
  deriving DecidableEq, Repr

/-- A host bus transaction, the tuple of 30_encoding.md R60. A read carries no data: `data` is then
whatever stands on the bus, and nothing looks at it. -/
structure Tx where
  dir  : Dir
  size : Size
  addr : Addr
  data : Word
  deriving DecidableEq, Repr

/-- The instructions, one constructor for each row of the opcode table. -/
inductive Instr where
  /-- Internet checksum of a buffer span (40_checksum.md R86). -/
  | csum
  /-- Build an IPv4 header with its checksum (41_ipv4_header.md R107). -/
  | ipBuild
  /-- Build a TCP header with its pseudo-header checksum (42_tcp_checksum.md R126). -/
  | tcpBuild
  /-- Pseudo-header checksum over a TCP segment in the buffer (42_tcp_checksum.md R128). -/
  | tcpCsum
  /-- Build the 40-byte IPv4 and TCP header pair (43_segment_build.md R141). -/
  | segBuild
  /-- Read a register (44_host_access.md R150). -/
  | regRd (r : Reg)
  /-- Write a register; a write to CMD runs the command of the data word (44_host_access.md R151). -/
  | regWr (r : Reg) (d : Word)
  /-- Read a buffer byte (44_host_access.md R152). -/
  | bufRd (i : BufIndex)
  /-- Write a buffer byte (44_host_access.md R153). -/
  | bufWr (i : BufIndex) (d : Word)
  deriving DecidableEq, Repr

/-- Why a transaction or a command word is no instruction. -/
inductive DecodeError where
  /-- The transaction's header does not decode (30_encoding.md R61). -/
  | busError
  /-- The command word is not one of the five legal ones (30_encoding.md R64). -/
  | illegalCommand
  deriving DecidableEq, Repr

end Sys2Proof
end

