-- ==== Sys2Proof/WellFormed.lean ====
section
/-! DEFINITION. Well-formed instructions: the ones that are the decoding of some transaction on an ICU
with `bufBytes` bytes of buffer. A buffer index lies inside the buffer (30_encoding.md R61, the BUF
rows' extra condition), and a REG_WR to CMD whose data is a legal command word is written as that
command's own instruction. -/

namespace Sys2Proof

/-- The five legal command words (30_encoding.md R64). -/
def legalCommandWord (w : Word) : Bool :=
  w == 1#32 || w == 2#32 || w == 3#32 || w == 4#32 || w == 5#32

/-- The instruction is the decoding of some transaction, on an ICU whose buffer has `bufBytes` bytes. -/
def Instr.wf (bufBytes : Nat) : Instr → Bool
  | .csum | .ipBuild | .tcpBuild | .tcpCsum | .segBuild => true
  | .regRd _ => true
  | .regWr .cmd d => !legalCommandWord d
  | .regWr _ _ => true
  | .bufRd i => decide (i.toNat < bufBytes)
  | .bufWr i _ => decide (i.toNat < bufBytes)

end Sys2Proof
end

