-- ==== Sys2Proof/Decode.lean ====
section
/-! DEFINITION. Decoding and encoding, both levels of 30_encoding.md: a host transaction by its 19-bit
header (R60, R61), and a command by the 32-bit data word of a register write to CMD (R62, R64). Total,
and every refusal has a name. -/

namespace Sys2Proof

/-! ### Field codes -/

/-- The register index of a slot, `addr[5:2]` (44_host_access.md R150). -/
def Reg.index : Reg → BitVec 4
  | .cmd => 0 | .status => 1 | .result => 2 | .offset => 3 | .length => 4 | .srcAddr => 5
  | .dstAddr => 6 | .ports => 7 | .seq => 8 | .acknum => 9 | .tcpctl => 10 | .ipid => 11
  | .reserved k => BitVec.ofNat 4 (12 + k.val)

/-- The slot with a given register index. -/
def Reg.ofIndex (r : BitVec 4) : Reg :=
  match r.toNat with
  | 0 => .cmd | 1 => .status | 2 => .result | 3 => .offset | 4 => .length | 5 => .srcAddr
  | 6 => .dstAddr | 7 => .ports | 8 => .seq | 9 => .acknum | 10 => .tcpctl | 11 => .ipid
  | 12 => .reserved 0 | 13 => .reserved 1 | 14 => .reserved 2 | _ => .reserved 3

/-- The host byte address of a slot, `4r` (10_state.md R21). -/
def Reg.addr (r : Reg) : Addr := 0#10 ++ r.index ++ 0#2

/-- `dir`: 0 read, 1 write (R60). -/
def Dir.bit : Dir → BitVec 1
  | .read => 0 | .write => 1

def Dir.ofBit (b : BitVec 1) : Dir := if b = 1#1 then .write else .read

/-- `size`: 0 is 8-bit, 1 is 16-bit, 2 is 32-bit, 3 is reserved (R60). -/
def Size.code : Size → BitVec 2
  | .byte => 0 | .half => 1 | .word => 2 | .reserved => 3

def Size.ofCode (c : BitVec 2) : Size :=
  if c = 0#2 then .byte else if c = 1#2 then .half else if c = 2#2 then .word else .reserved

/-- The transaction header: `hdr[18] = dir`, `hdr[17:16] = size`, `hdr[15:0] = addr` (R60). -/
def Tx.header (t : Tx) : BitVec 19 := t.dir.bit ++ t.size.code ++ t.addr

/-- The transaction with a given header and data. -/
def Tx.ofHeader (h : BitVec 19) (d : Word) : Tx :=
  { dir := Dir.ofBit (h.extractLsb' 18 1), size := Size.ofCode (h.extractLsb' 16 2),
    addr := h.extractLsb' 0 16, data := d }

/-! ### Host transactions (R61) -/

/-- The four transaction kinds of R61. -/
inductive TxKind where
  | regRd | regWr | bufRd | bufWr
  deriving DecidableEq, Repr

/-- A row of the table of R61: the header bits that must match, and where. -/
structure TxRow where
  kind    : TxKind
  pattern : BitVec 19
  mask    : BitVec 19
  deriving DecidableEq, Repr

/-- The table of R61, in the order its rows are tested. -/
def txRows : List TxRow :=
  [ ⟨.regRd, 0x20000#19, 0x7FFC3#19⟩, ⟨.regWr, 0x60000#19, 0x7FFC3#19⟩,
    ⟨.bufRd, 0x08000#19, 0x78000#19⟩, ⟨.bufWr, 0x48000#19, 0x78000#19⟩ ]

def TxRow.hits (r : TxRow) (h : BitVec 19) : Bool := (h &&& r.mask) == r.pattern

/-- The first row that matches the header wins (R61). -/
def txKind (h : BitVec 19) : Option TxKind := (txRows.find? (·.hits h)).map (·.kind)

/-- The register slot an address names, by `addr[5:2]`. -/
def regOfAddr (a : Addr) : Reg := Reg.ofIndex (a.extractLsb' 2 4)

/-- The buffer index an address of the buffer window names, `addr - 0x8000`. -/
def bufIndexOfAddr (a : Addr) : BufIndex := a.extractLsb' 0 15

/-- Decoding of a host transaction (R61): the header's row, then the BUF rows' extra condition. Whatever
is left is a BusError transaction. -/
def decodeTx (bufBytes : Nat) (t : Tx) : Except DecodeError Instr :=
  match txKind t.header with
  | some .regRd => .ok (.regRd (regOfAddr t.addr))
  | some .regWr => .ok (.regWr (regOfAddr t.addr) t.data)
  | some .bufRd =>
      if (bufIndexOfAddr t.addr).toNat < bufBytes then .ok (.bufRd (bufIndexOfAddr t.addr))
      else .error .busError
  | some .bufWr =>
      if (bufIndexOfAddr t.addr).toNat < bufBytes then .ok (.bufWr (bufIndexOfAddr t.addr) t.data)
      else .error .busError
  | none => .error .busError

/-! ### Commands (R62, R64) -/

/-- Decoding of a command word: `RSVD[31:8]` must be zero and `OP[7:0]` one of 0x01 to 0x05 (R64). -/
def decodeCmd (w : Word) : Except DecodeError Instr :=
  if w.extractLsb' 8 24 = 0#24 then
    match (w.extractLsb' 0 8).toNat with
    | 1 => .ok .csum
    | 2 => .ok .ipBuild
    | 3 => .ok .tcpBuild
    | 4 => .ok .tcpCsum
    | 5 => .ok .segBuild
    | _ => .error .illegalCommand
  else .error .illegalCommand

/-- Decoding of a transaction to the instruction it runs: a register write to CMD with a legal command
word is that command (R62); any other transaction is what R61 makes of it. -/
def decode (bufBytes : Nat) (t : Tx) : Except DecodeError Instr :=
  match decodeTx bufBytes t with
  | .ok (.regWr .cmd d) =>
      match decodeCmd d with
      | .ok c => .ok c
      | .error _ => .ok (.regWr .cmd d)
  | r => r

/-! ### Encoding -/

/-- A 32-bit write of a register slot (30_encoding.md R66, `wr`). -/
def Tx.regWrite (r : Reg) (d : Word) : Tx := { dir := .write, size := .word, addr := r.addr, data := d }

/-- A 32-bit read of a register slot (R66, `rd`). -/
def Tx.regRead (r : Reg) : Tx := { dir := .read, size := .word, addr := r.addr, data := 0 }

/-- An 8-bit write of a buffer byte, at host address `0x8000 + i` (R66, `wb`). -/
def Tx.bufWrite (i : BufIndex) (d : Word) : Tx := { dir := .write, size := .byte, addr := 1#1 ++ i, data := d }

/-- An 8-bit read of a buffer byte, at host address `0x8000 + i` (R66, `rb`). -/
def Tx.bufRead (i : BufIndex) : Tx := { dir := .read, size := .byte, addr := 1#1 ++ i, data := 0 }

/-- The transaction that carries an instruction. -/
def encode : Instr → Tx
  | .csum => Tx.regWrite .cmd 1
  | .ipBuild => Tx.regWrite .cmd 2
  | .tcpBuild => Tx.regWrite .cmd 3
  | .tcpCsum => Tx.regWrite .cmd 4
  | .segBuild => Tx.regWrite .cmd 5
  | .regRd r => Tx.regRead r
  | .regWr r d => Tx.regWrite r d
  | .bufRd i => Tx.bufRead i
  | .bufWr i d => Tx.bufWrite i d

/-! ### The opcode table's numbering -/

/-- The transaction whose bits are `w`, as spec/opcode_table.json numbers them. A row of more than 24
bits is a command: its word is the data of a register write to CMD. A shorter row is a 19-bit
transaction header, in whole bytes with the bits above bit 18 zero; the data word is zero. -/
def Tx.ofTableWord (nbits w : Nat) : Option Tx :=
  if 24 < nbits then
    if w < 2 ^ 32 then some (Tx.regWrite .cmd (BitVec.ofNat 32 w)) else none
  else
    if w < 2 ^ 19 then some (Tx.ofHeader (BitVec.ofNat 19 w) 0) else none

/-- The instruction the decoder reads from an instruction whose bits are `w`, on an ICU with the
`BUF_BYTES` of `State.reset`. -/
def decodeTableWord (nbits w : Nat) : Option Instr :=
  (Tx.ofTableWord nbits w).bind fun t => (decode Config.bufBytes t).toOption

end Sys2Proof
end

