-- ==== Sys2Proof/Machine/Bytes.lean ====
section
/-! DEFINITION. Byte sequences in network byte order (00_scope.md R9, 20_memory.md R44). -/

namespace Sys2Proof.Machine

/-- `v[15:8]`. -/
def hiByte (v : Half) : Byte := v.extractLsb' 8 8

/-- `v[7:0]`. -/
def loByte (v : Half) : Byte := v.extractLsb' 0 8

/-- The big-endian encoding of a 16-bit value, most significant byte first (00_scope.md R9). -/
def be16 (v : Half) : List Byte := [hiByte v, loByte v]

/-- The big-endian encoding of a 32-bit value. -/
def be32 (v : Word) : List Byte := be16 (v.extractLsb' 16 16) ++ be16 (v.extractLsb' 0 16)

/-- The 16-bit value of two bytes, the first the high byte. -/
def ofBytes16 (a b : Byte) : Half := a ++ b

/-- The 32-bit value of four bytes, the first the highest. -/
def ofBytes32 (a b c d : Byte) : Word := ofBytes16 a b ++ ofBytes16 c d

/-- The sequence with the two bytes at `p` and `p + 1` set to `be16 c` (20_memory.md R44: a checksum's
`c[15:8]` stands at the field's first offset, `c[7:0]` at the next). -/
def putBe16 (s : List Byte) (p : Nat) (c : Half) : List Byte := (s.set p (hiByte c)).set (p + 1) (loByte c)

end Sys2Proof.Machine
end

