-- ==== Sys2Proof/Machine/Checksum.lean ====
section
/-! DEFINITION. The Internet checksum of 40_checksum.md section 1: form words, add and fold, complement. -/

namespace Sys2Proof.Machine

/-- The 16-bit words of a byte sequence: consecutive pairs from the first byte, big-endian; an odd final
byte is followed by a zero pad byte, so it is the high byte of its word (R81). -/
def wordsOf : List Byte → List Half
  | [] => []
  | [b] => [ofBytes16 b 0]
  | a :: b :: rest => ofBytes16 a b :: wordsOf rest

/-- The exact sum of the words (R82, `SUM`). -/
def sumWords : List Half → Nat
  | [] => 0
  | w :: ws => w.toNat + sumWords ws

/-- One pass of the fold: the upper bits of the accumulator added into its lower 16 bits (R82). -/
def foldPass (a : Nat) : Nat := a % 2 ^ 16 + a / 2 ^ 16

/-- The loop of R82: while the accumulator has a bit above its lower 16, one more pass. The first argument
bounds the number of passes. -/
def foldLoop : Nat → Nat → Nat
  | 0, a => a
  | k + 1, a => if a / 2 ^ 16 = 0 then a else foldLoop k (foldPass a)

/-- `FOLD` (R82). Every pass but the last lowers the accumulator, so `a` passes are always enough. -/
def fold (a : Nat) : Half := BitVec.ofNat 16 (foldLoop a a)

/-- The ones'-complement sum (R82, `OCSUM`). -/
def ocsum (s : List Byte) : Half := fold (sumWords (wordsOf s))

/-- The Internet checksum (R83, `ICSUM`). A result of 0x0000 stays 0x0000 (R87). -/
def icsum (s : List Byte) : Half := ~~~ (ocsum s)

end Sys2Proof.Machine
end

