-- ==== Sys2Proof/Machine/Headers.lean ====
section
/-! DEFINITION. The byte sequences the ICU builds: the IPv4 header (41_ipv4_header.md R101 to R106), the
pseudo-header and the TCP header (42_tcp_checksum.md R120 to R124). -/

namespace Sys2Proof.Machine

/-! ### The IPv4 header -/

/-- Version 4 and header length 5, one byte (R101, R103). -/
def ipVersionIhl : Byte := 4#4 ++ 5#4

/-- Type of service 0 (R101). -/
def ipTosValue : Byte := 0

/-- Flags and fragment offset, together 0 (R101). -/
def ipFragValue : Half := 0

/-- Time to live 64 (R101). -/
def ipTtlValue : Byte := 64

/-- Protocol TCP = 6 (R101). -/
def protocolTcp : Byte := 6

/-- The offset of the header checksum in the IPv4 header (R103). -/
def ipChecksumAt : Nat := 10

/-- The 20 header bytes with the checksum field zero (R106, `H0`). -/
def ipHeaderZeroed (tl ident : Half) (src dst : Word) : List Byte :=
  [ipVersionIhl, ipTosValue] ++ be16 tl ++ be16 ident ++ be16 ipFragValue ++ [ipTtlValue, protocolTcp]
    ++ be16 0 ++ be32 src ++ be32 dst

/-- The header checksum: over the header alone, its own field zero (R105). -/
def ipChecksum (tl ident : Half) (src dst : Word) : Half := icsum (ipHeaderZeroed tl ident src dst)

/-- The IPv4 header with its checksum (R106, `IPHDR`). -/
def ipHeader (tl ident : Half) (src dst : Word) : List Byte :=
  putBe16 (ipHeaderZeroed tl ident src dst) ipChecksumAt (ipChecksum tl ident src dst)

/-! ### The pseudo-header and the TCP header -/

/-- The 12-byte pseudo-header (42_tcp_checksum.md R123, `PSEUDO`). It is never written to the buffer. -/
def pseudoHeader (src dst : Word) (len : Half) : List Byte :=
  be32 src ++ be32 dst ++ [0, protocolTcp] ++ be16 len

/-- The operands of the TCP header (42_tcp_checksum.md R124), addresses apart. -/
structure TcpFields where
  sport : Half
  dport : Half
  seq   : Word
  ack   : Word
  synf  : BitVec 1
  ackf  : BitVec 1
  win   : Half
  deriving DecidableEq, Repr

/-- Data offset 5 in bits [7:4], the reserved bits zero (R121, R122: byte 12 is 0x50). -/
def tcpDataOffsetByte : Byte := 5#4 ++ 0#4

/-- The flags byte: ACK in bit 4, SYN in bit 1, every other bit zero (R122). -/
def tcpFlagsByte (synf ackf : BitVec 1) : Byte := ackf.setWidth 8 <<< 4 ||| synf.setWidth 8 <<< 1

/-- The offset of the checksum in the TCP header (R121). -/
def tcpChecksumAt : Nat := 16

/-- The length of the TCP header in bytes, and the pseudo-header's TCP length for a built header (R124). -/
def tcpHeaderBytes : Half := 20

/-- The 20 header bytes with the checksum field zero (R124, `T0`); the urgent pointer is 0. -/
def tcpHeaderZeroed (f : TcpFields) : List Byte :=
  be16 f.sport ++ be16 f.dport ++ be32 f.seq ++ be32 f.ack ++ [tcpDataOffsetByte, tcpFlagsByte f.synf f.ackf]
    ++ be16 f.win ++ be16 0 ++ be16 0

/-- The TCP checksum of a built header: over the pseudo-header followed by the header, its own field zero
(R124). -/
def tcpChecksum (src dst : Word) (f : TcpFields) : Half :=
  icsum (pseudoHeader src dst tcpHeaderBytes ++ tcpHeaderZeroed f)

/-- The TCP header with its checksum (R124, `TCPHDR`). -/
def tcpHeader (src dst : Word) (f : TcpFields) : List Byte :=
  putBe16 (tcpHeaderZeroed f) tcpChecksumAt (tcpChecksum src dst f)

/-- The checksum of a TCP segment as it stands (42_tcp_checksum.md R128). -/
def segmentChecksum (src dst : Word) (len : Half) (segment : List Byte) : Half :=
  icsum (pseudoHeader src dst len ++ segment)

end Sys2Proof.Machine
end

