-- ==== Sys2Proof/Machine/State.lean ====
section
/-! DEFINITION. The ICU's state (10_state.md R20), the outside world's next actions and the values it
has read (44_host_access.md R158), the reasons a step can stop, and the state after reset (R35, R192). -/

namespace Sys2Proof.Machine

/-- The data buffer's written bytes, by buffer offset, offsets strictly rising. An offset that is not
listed has not been written since reset and has no value (70_reset_and_hazards.md R192). -/
abbrev Memory := List Host.Cell

/-- What the outside world does to the ICU next: a host transaction (44_host_access.md R156), or the reset
input asserted and released between two transactions (70_reset_and_hazards.md R190, R193). -/
inductive Input where
  | tx (t : Tx)
  | reset
  deriving DecidableEq, Repr

/-- Why a step stops: the two model faults of 60_exceptions.md R175. -/
inductive Fault where
  /-- Raised by the step for a transaction whose header does not decode (44_host_access.md R157), and by
  BUF_RD and BUF_WR for an index outside the buffer. Safe: the hardware answers with an error response and changes
  no state, and the host's reaction is not modelled. -/
  | busError
  /-- Raised by BUF_RD, CSUM and TCP_CSUM for a byte not written since reset (70_reset_and_hazards.md R192).
  Safe: the hardware goes on with an unspecified value, the model stops. -/
  | unwrittenByte
  deriving DecidableEq, Repr

/-- Why an instruction has no meaning. -/
inductive Refusal where
  /-- Raised by exec's arm for an instruction without a meaning. Safe. No arm of this model raises it. -/
  | notModelled (mnemonic : String)
  deriving DecidableEq, Repr

/-- The state. The first eleven fields and `buf` are the architectural state of 10_state.md R20, in the
widths of its record; `bufBytes` is the parameter BUF_BYTES; `input` and `reads` are the model's own. -/
structure State where
  /-- OFFSET[15:0] (R25). -/
  offset   : BitVec 16
  /-- LENGTH[15:0] (R26). -/
  length   : BitVec 16
  /-- SRC_ADDR (R27). -/
  srcAddr  : BitVec 32
  /-- DST_ADDR (R28). -/
  dstAddr  : BitVec 32
  /-- PORTS: SRC_PORT[31:16], DST_PORT[15:0] (R29). -/
  ports    : BitVec 32
  /-- SEQ (R30). -/
  seq      : BitVec 32
  /-- ACKNUM (R31). -/
  acknum   : BitVec 32
  /-- TCPCTL: WINDOW[15:0], SYN[16], ACK[17], the rest zero (R32). -/
  tcpctl   : BitVec 32
  /-- IPID[15:0] (R33). -/
  ipid     : BitVec 16
  /-- STATUS: DONE[0], ERR[1], ECODE[7:4], the rest zero (R23). -/
  status   : BitVec 32
  /-- RESULT: CSUM_LO[15:0], CSUM_HI[31:16] (R24). -/
  result   : BitVec 32
  /-- The data buffer (20_memory.md R40). -/
  buf      : Memory
  /-- BUF_BYTES, the buffer's size; nothing changes it (00_scope.md R7). -/
  bufBytes : Nat
  /-- The model's own: what the outside world does next, the first first (44_host_access.md R158). -/
  input    : List Input
  /-- The model's own: the values the host's reads returned, the first first (44_host_access.md R158). -/
  reads    : List Word
  deriving DecidableEq, Repr

/-- The ICU with `bufBytes` bytes of buffer right after reset: every register 0 (10_state.md R35), every
byte of the buffer unwritten (70_reset_and_hazards.md R192), nothing pending and nothing read. -/
def State.resetOf (bufBytes : Nat) : State :=
  { offset := 0, length := 0, srcAddr := 0, dstAddr := 0, ports := 0, seq := 0, acknum := 0,
    tcpctl := 0, ipid := 0, status := 0, result := 0, buf := [], bufBytes := bufBytes,
    input := [], reads := [] }

/-- The machine right after reset, with the vectors' buffer size (log entry 3). -/
def State.reset : State := State.resetOf Config.bufBytes

end Sys2Proof.Machine
end

