-- ==== Sys2Proof/Machine/Operands.lean ====
section
/-! DEFINITION. Operand assembly (30_encoding.md R63): every operand of a command is a field of a
parameter register as it stands when the command runs, none is extended, scaled or shifted but the two
lengths, which become unbounded naturals. -/

namespace Sys2Proof.Machine

/-- `o`: OFFSET[15:0] as a natural number. -/
def State.opOffset (s : State) : Nat := s.offset.toNat

/-- `n`: LENGTH[15:0] as a natural number. -/
def State.opLength (s : State) : Nat := s.length.toNat

/-- `sport`: PORTS[31:16]. -/
def State.opSport (s : State) : Half := s.ports.extractLsb' 16 16

/-- `dport`: PORTS[15:0]. -/
def State.opDport (s : State) : Half := s.ports.extractLsb' 0 16

/-- `win`: TCPCTL[15:0]. -/
def State.opWindow (s : State) : Half := s.tcpctl.extractLsb' 0 16

/-- `synf`: TCPCTL[16]. -/
def State.opSyn (s : State) : BitVec 1 := s.tcpctl.extractLsb' 16 1

/-- `ackf`: TCPCTL[17]. -/
def State.opAck (s : State) : BitVec 1 := s.tcpctl.extractLsb' 17 1

/-- The operands of a TCP header; `seq` is SEQ and `ack` is ACKNUM, with no arithmetic on them. -/
def State.opTcp (s : State) : TcpFields :=
  { sport := s.opSport, dport := s.opDport, seq := s.seq, ack := s.acknum,
    synf := s.opSyn, ackf := s.opAck, win := s.opWindow }

end Sys2Proof.Machine
end

