-- ==== Sys2Proof/Machine/Flags.lean ====
section
/-! DEFINITION. STATUS, the ICU's only flags (10_state.md R23), and the command errors it reports
(60_exceptions.md R170). -/

namespace Sys2Proof.Machine

/-- The command errors (60_exceptions.md R170). -/
inductive CmdError where
  | illegalCmd | range | lengthOvf
  deriving DecidableEq, Repr

/-- The error's ECODE (R170). -/
def CmdError.code : CmdError → Word
  | .illegalCmd => 1 | .range => 2 | .lengthOvf => 3

/-- STATUS after a command that completed: DONE (R23). -/
def statusDone : Word := 0x00000001

/-- STATUS after a command that raised an error: ERR and ECODE (60_exceptions.md R171). -/
def statusError (e : CmdError) : Word := e.code <<< 4 ||| 0x00000002#32

/-- STATUS[0]. -/
def doneOf (status : Word) : Bool := status.getLsbD 0

/-- STATUS[1]. -/
def errOf (status : Word) : Bool := status.getLsbD 1

/-- STATUS[7:4]. -/
def ecodeOf (status : Word) : BitVec 4 := status.extractLsb' 4 4

end Sys2Proof.Machine
end

