-- ==== Sys2Proof/Machine/Ops.lean ====
section
/-! DEFINITION. The shared operations: the data buffer (20_memory.md R40, 70_reset_and_hazards.md R192),
the registers (44_host_access.md R150, R151, R155), a command's two ends (60_exceptions.md R171 and the
commands' last lines), and reset (70_reset_and_hazards.md R190, R192). -/

namespace Sys2Proof.Machine

/-! ### The data buffer -/

/-- The byte at a buffer offset, or nothing where nothing was written since reset. -/
def Memory.read : Memory → Nat → Option Byte
  | [], _ => none
  | (b, w) :: rest, a => if a = b then some w else Memory.read rest a

/-- The buffer with one byte written; the offsets stay strictly rising. -/
def Memory.write : Memory → Nat → Byte → Memory
  | [], a, v => [(a, v)]
  | (b, w) :: rest, a, v =>
      if a < b then (a, v) :: (b, w) :: rest
      else if a = b then (a, v) :: rest
      else (b, w) :: Memory.write rest a v

/-- Every listed offset is at least `lo`, and they strictly rise. -/
def Memory.risingFrom : Nat → Memory → Bool
  | _, [] => true
  | lo, (b, _) :: rest => decide (lo ≤ b) && Memory.risingFrom (b + 1) rest

/-- The canonical form: offsets strictly rising. (An unlisted offset reads as no value, and every listed
one has a value, so no entry says what an unlisted offset reads as.) -/
def Memory.wf (m : Memory) : Bool := Memory.risingFrom 0 m

/-- Every listed offset lies inside a buffer of `bufBytes` bytes. -/
def Memory.inside (bufBytes : Nat) (m : Memory) : Bool := m.all fun c => decide (c.1 < bufBytes)

/-- `MemRead(o, n)` (00_scope.md R9): the `n` bytes from `o`, or nothing if one of them is unwritten. -/
def Memory.readSpan (m : Memory) : Nat → Nat → Option (List Byte)
  | _, 0 => some []
  | o, n + 1 =>
      match Memory.read m o, Memory.readSpan m (o + 1) n with
      | some b, some bs => some (b :: bs)
      | _, _ => none

/-- `MemWrite(o, len(bs), bs)` (00_scope.md R9). -/
def Memory.writeSpan (m : Memory) : Nat → List Byte → Memory
  | _, [] => m
  | o, b :: bs => Memory.writeSpan (Memory.write m o b) (o + 1) bs

/-! ### Updates of the state, by name -/

def State.withStatus (s : State) (v : Word) : State := { s with status := v }

def State.withResult (s : State) (v : Word) : State := { s with result := v }

def State.withBuf (s : State) (m : Memory) : State := { s with buf := m }

def State.withInput (s : State) (l : List Input) : State := { s with input := l }

/-- A read returned `v` to the host (44_host_access.md R158). -/
def State.logRead (s : State) (v : Word) : State := { s with reads := s.reads ++ [v] }

/-! ### Registers -/

/-- The live bits of a register: WMASK of 44_host_access.md R155 for the read/write registers, the fields
of 10_state.md R23 and R24 for STATUS and RESULT, none for CMD and the reserved slots. -/
def Reg.liveMask : Reg → Word
  | .offset | .length | .ipid => 0x0000FFFF
  | .tcpctl => 0x0003FFFF
  | .srcAddr | .dstAddr | .ports | .seq | .acknum | .result => 0xFFFFFFFF
  | .status => 0x000000F3
  | .cmd | .reserved _ => 0

/-- The whole 32-bit value of a register as the host reads it: reserved bits read as zero, CMD and the
reserved slots read as 0 (44_host_access.md R150). -/
def State.readReg (s : State) : Reg → Word
  | .cmd => 0
  | .status => s.status &&& Reg.liveMask .status
  | .result => s.result
  | .offset => s.offset.setWidth 32
  | .length => s.length.setWidth 32
  | .srcAddr => s.srcAddr
  | .dstAddr => s.dstAddr
  | .ports => s.ports
  | .seq => s.seq
  | .acknum => s.acknum
  | .tcpctl => s.tcpctl &&& Reg.liveMask .tcpctl
  | .ipid => s.ipid.setWidth 32
  | .reserved _ => 0

/-- A host write of a register other than CMD: the live bits of a read/write register are stored, every
other write is ignored (44_host_access.md R151, R155). -/
def State.writeReg (s : State) (r : Reg) (d : Word) : State :=
  let v := d &&& Reg.liveMask r
  match r with
  | .offset => { s with offset := v.setWidth 16 }
  | .length => { s with length := v.setWidth 16 }
  | .srcAddr => { s with srcAddr := v }
  | .dstAddr => { s with dstAddr := v }
  | .ports => { s with ports := v }
  | .seq => { s with seq := v }
  | .acknum => { s with acknum := v }
  | .tcpctl => { s with tcpctl := v }
  | .ipid => { s with ipid := v.setWidth 16 }
  | .cmd | .status | .result | .reserved _ => s

/-! ### The two ends of a command -/

/-- A command error, the ICU's only exception (60_exceptions.md R171, R174): STATUS records it, nothing else
changes, control goes nowhere. There is no return from it to model (R176): the next command overwrites
STATUS in full. -/
def raiseError (e : CmdError) (s : State) : Host.Outcome State Fault Refusal :=
  .next (s.withStatus (statusError e))

/-- A command completes: RESULT holds its checksum or checksums, STATUS is DONE. -/
def complete (result : Word) (s : State) : Host.Outcome State Fault Refusal :=
  .next ((s.withResult result).withStatus statusDone)

/-- The span of `n` bytes from `o` lies inside the buffer; the sum is exact (00_scope.md R9). -/
def State.spanFits (s : State) (o n : Nat) : Bool := decide (o + n ≤ s.bufBytes)

/-! ### Reset -/

/-- The reset input (70_reset_and_hazards.md R190, R192): every register takes its reset value and every
byte of the buffer is unwritten again. The buffer's size, the host's later actions and what the host has
already read are not the reset's to change. -/
def applyReset (s : State) : State :=
  { State.resetOf s.bufBytes with input := s.input, reads := s.reads }

end Sys2Proof.Machine
end

