-- ==== Sys2Proof/Machine/BuildCommands.lean ====
section
/-! DEFINITION. The commands that write the buffer: IP_BUILD, TCP_BUILD and SEG_BUILD. None of them reads
it (20_memory.md R42). -/

namespace Sys2Proof.Machine

/-- IP_BUILD (41_ipv4_header.md R107): RANGE is checked before LENGTH_OVF (60_exceptions.md R172). -/
def execIpBuild (s : State) : Host.Outcome State Fault Refusal :=
  if s.spanFits s.opOffset 20 then
    if 20 + s.opLength ≤ 0xFFFF then
      let tl := BitVec.ofNat 16 (20 + s.opLength)
      complete ((ipChecksum tl s.ipid s.srcAddr s.dstAddr).setWidth 32)
        (s.withBuf (Memory.writeSpan s.buf s.opOffset (ipHeader tl s.ipid s.srcAddr s.dstAddr)))
    else raiseError .lengthOvf s
  else raiseError .range s

/-- TCP_BUILD (42_tcp_checksum.md R126). LENGTH is not read. -/
def execTcpBuild (s : State) : Host.Outcome State Fault Refusal :=
  if s.spanFits s.opOffset 20 then
    complete ((tcpChecksum s.srcAddr s.dstAddr s.opTcp).setWidth 32)
      (s.withBuf (Memory.writeSpan s.buf s.opOffset (tcpHeader s.srcAddr s.dstAddr s.opTcp)))
  else raiseError .range s

/-- The IPv4 total length of a SEG_BUILD datagram (43_segment_build.md R141). -/
def segTotalLength : Half := 40

/-- SEG_BUILD (43_segment_build.md R141). The zeroing of step 1 is left out: every one of the 40 bytes is
written again inside the same atomic command, and R141 says a model may leave it out. -/
def execSegBuild (s : State) : Host.Outcome State Fault Refusal :=
  if s.spanFits s.opOffset 40 then
    complete
      (ipChecksum segTotalLength s.ipid s.srcAddr s.dstAddr ++ tcpChecksum s.srcAddr s.dstAddr s.opTcp)
      (s.withBuf
        (Memory.writeSpan
          (Memory.writeSpan s.buf s.opOffset (ipHeader segTotalLength s.ipid s.srcAddr s.dstAddr))
          (s.opOffset + 20) (tcpHeader s.srcAddr s.dstAddr s.opTcp)))
  else raiseError .range s

end Sys2Proof.Machine
end

