-- ==== Sys2Proof/Machine/ChecksumCommands.lean ====
section
/-! DEFINITION. The commands that read the buffer: CSUM and TCP_CSUM. -/

namespace Sys2Proof.Machine

/-- CSUM (40_checksum.md R86). -/
def execCsum (s : State) : Host.Outcome State Fault Refusal :=
  if s.spanFits s.opOffset s.opLength then
    match Memory.readSpan s.buf s.opOffset s.opLength with
    | some bytes => complete ((icsum bytes).setWidth 32) s
    | none => .fault .unwrittenByte
  else raiseError .range s

/-- TCP_CSUM (42_tcp_checksum.md R128): the segment exactly as it stands, its checksum field included. -/
def execTcpCsum (s : State) : Host.Outcome State Fault Refusal :=
  if s.spanFits s.opOffset s.opLength then
    match Memory.readSpan s.buf s.opOffset s.opLength with
    | some bytes => complete ((segmentChecksum s.srcAddr s.dstAddr s.length bytes).setWidth 32) s
    | none => .fault .unwrittenByte
  else raiseError .range s

end Sys2Proof.Machine
end

