-- ==== Sys2Proof/Machine/HostAccess.lean ====
section
/-! DEFINITION. The host's four transactions (44_host_access.md R150 to R155). -/

namespace Sys2Proof.Machine

/-- A write of `d` to CMD (44_host_access.md R154, `RUN_COMMAND`): the command that `d` encodes runs whole;
an illegal word raises ILLEGAL_CMD. The bus response is OKAY in every case, so the step goes on. -/
def runCommand (d : Word) (s : State) : Host.Outcome State Fault Refusal :=
  match decodeCmd d with
  | .ok .csum => execCsum s
  | .ok .ipBuild => execIpBuild s
  | .ok .tcpBuild => execTcpBuild s
  | .ok .tcpCsum => execTcpCsum s
  | .ok .segBuild => execSegBuild s
  | _ => raiseError .illegalCmd s

/-- REG_RD (44_host_access.md R150). A read has no effect but the value it returns. -/
def execRegRd (r : Reg) (s : State) : Host.Outcome State Fault Refusal :=
  .next (s.logRead (s.readReg r))

/-- REG_WR (44_host_access.md R151). -/
def execRegWr (r : Reg) (d : Word) (s : State) : Host.Outcome State Fault Refusal :=
  match r with
  | .cmd => runCommand d s
  | r => .next (s.writeReg r d)

/-- BUF_RD (44_host_access.md R152): the byte, zero-extended. A byte that nothing has written since reset
has no value to return (70_reset_and_hazards.md R192). -/
def execBufRd (i : BufIndex) (s : State) : Host.Outcome State Fault Refusal :=
  if i.toNat < s.bufBytes then
    match Memory.read s.buf i.toNat with
    | some b => .next (s.logRead (b.setWidth 32))
    | none => .fault .unwrittenByte
  else .fault .busError

/-- BUF_WR (44_host_access.md R153): `buf[i] <- d[7:0]`. -/
def execBufWr (i : BufIndex) (d : Word) (s : State) : Host.Outcome State Fault Refusal :=
  if i.toNat < s.bufBytes then .next (s.withBuf (Memory.write s.buf i.toNat (d.extractLsb' 0 8)))
  else .fault .busError

end Sys2Proof.Machine
end

