-- ==== Sys2Proof/Machine/Dispatch.lean ====
section
/-! DEFINITION. What each instruction does: one arm for each constructor, each one call of its meaning. -/

namespace Sys2Proof.Machine

def exec (i : Instr) (s : State) : Host.Outcome State Fault Refusal :=
  match i with
  | .csum => Sys2Proof.Machine.execCsum s
  | .ipBuild => Sys2Proof.Machine.execIpBuild s
  | .tcpBuild => Sys2Proof.Machine.execTcpBuild s
  | .tcpCsum => Sys2Proof.Machine.execTcpCsum s
  | .segBuild => Sys2Proof.Machine.execSegBuild s
  | .regRd r => Sys2Proof.Machine.execRegRd r s
  | .regWr r d => Sys2Proof.Machine.execRegWr r d s
  | .bufRd k => Sys2Proof.Machine.execBufRd k s
  | .bufWr k d => Sys2Proof.Machine.execBufWr k d s

end Sys2Proof.Machine
end

