-- ==== Sys2Proof/Machine/Fetch.lean ====
section
/-! DEFINITION. What the outside world does next (44_host_access.md R158, R159). -/

namespace Sys2Proof.Machine

/-- What a step has to do. -/
inductive Fetched where
  /-- Nothing arrives: the ICU keeps its state. -/
  | idle
  /-- The reset input was asserted and released. -/
  | reset (s : State)
  /-- The transaction does not decode. -/
  | busError
  /-- The transaction is this instruction, to be run on this state. -/
  | run (i : Instr) (s : State)
  deriving DecidableEq, Repr

/-- Take the outside world's next action off `input` and read it. -/
def fetch (s : State) : Fetched :=
  match s.input with
  | [] => .idle
  | .reset :: rest => .reset (applyReset (s.withInput rest))
  | .tx t :: rest =>
      match decode s.bufBytes t with
      | .ok i => .run i (s.withInput rest)
      | .error _ => .busError

/-- The state whose next transaction is the table word `w` of `nbits` bits; every later action stays. -/
def State.placeTableWord (s : State) (nbits w : Nat) : State :=
  match Tx.ofTableWord nbits w with
  | some t => s.withInput (.tx t :: s.input)
  | none => s

end Sys2Proof.Machine
end

