-- ==== Sys2Proof/Machine/Step.lean ====
section
/-! DEFINITION. One step is one host transaction, carried out whole (44_host_access.md R159), or one reset
between two transactions (70_reset_and_hazards.md R190, R193). With nothing pending the ICU does nothing
(10_state.md R22; log entry 1). -/

namespace Sys2Proof.Machine

def step (s : State) : Host.Outcome State Fault Refusal :=
  match fetch s with
  | .idle => .next s
  | .reset t => .next t
  | .busError => .fault .busError
  | .run i t => exec i t

/-- `s` with the instruction whose table word is `w` as the host's very next transaction (log entry 1). -/
def State.withFetchWord (s : State) (nbits w : Nat) : State := s.placeTableWord nbits w

end Sys2Proof.Machine
end

