-- ==== Sys2Proof/Machine/Fields.lean ====
section
/-! DEFINITION. The field accessors of a header in the buffer (41_ipv4_header.md R104, 42_tcp_checksum.md
R121). The ICU has no command that runs them: a host reads the bytes with BUF_RD and assembles them. An
accessor that meets an unwritten byte has no value. -/

namespace Sys2Proof.Machine

/-- A big-endian 16-bit field at an offset. -/
def Memory.field16 (m : Memory) (p : Nat) : Option Half :=
  match Memory.readSpan m p 2 with
  | some [a, b] => some (ofBytes16 a b)
  | _ => none

/-- A big-endian 32-bit field at an offset. -/
def Memory.field32 (m : Memory) (p : Nat) : Option Word :=
  match Memory.readSpan m p 4 with
  | some [a, b, c, d] => some (ofBytes32 a b c d)
  | _ => none

/-! ### The IPv4 header at `h` (R104) -/

def ipVersion (m : Memory) (h : Nat) : Option (BitVec 4) := (Memory.read m h).map (·.extractLsb' 4 4)
def ipIhl (m : Memory) (h : Nat) : Option (BitVec 4) := (Memory.read m h).map (·.extractLsb' 0 4)
def ipTos (m : Memory) (h : Nat) : Option Byte := Memory.read m (h + 1)
def ipTotlen (m : Memory) (h : Nat) : Option Half := Memory.field16 m (h + 2)
def ipIdent (m : Memory) (h : Nat) : Option Half := Memory.field16 m (h + 4)
def ipFragword (m : Memory) (h : Nat) : Option Half := Memory.field16 m (h + 6)
def ipTtl (m : Memory) (h : Nat) : Option Byte := Memory.read m (h + 8)
def ipProto (m : Memory) (h : Nat) : Option Byte := Memory.read m (h + 9)
def ipCsum (m : Memory) (h : Nat) : Option Half := Memory.field16 m (h + 10)
def ipSrc (m : Memory) (h : Nat) : Option Word := Memory.field32 m (h + 12)
def ipDst (m : Memory) (h : Nat) : Option Word := Memory.field32 m (h + 16)

/-- Where the TCP header of the datagram at `h` starts: `h + 4 * ip_ihl(h)` (R104). -/
def tcpStart (m : Memory) (h : Nat) : Option Nat := (ipIhl m h).map fun ihl => h + 4 * ihl.toNat

/-! ### The TCP header at `t` (R121) -/

def tcpSport (m : Memory) (t : Nat) : Option Half := Memory.field16 m t
def tcpDport (m : Memory) (t : Nat) : Option Half := Memory.field16 m (t + 2)
def tcpSeq (m : Memory) (t : Nat) : Option Word := Memory.field32 m (t + 4)
def tcpAck (m : Memory) (t : Nat) : Option Word := Memory.field32 m (t + 8)
def tcpDoff (m : Memory) (t : Nat) : Option (BitVec 4) := (Memory.read m (t + 12)).map (·.extractLsb' 4 4)
def tcpFlags (m : Memory) (t : Nat) : Option Byte := Memory.read m (t + 13)
def tcpSyn (m : Memory) (t : Nat) : Option (BitVec 1) := (tcpFlags m t).map (·.extractLsb' 1 1)
def tcpAckf (m : Memory) (t : Nat) : Option (BitVec 1) := (tcpFlags m t).map (·.extractLsb' 4 1)
def tcpWin (m : Memory) (t : Nat) : Option Half := Memory.field16 m (t + 14)
def tcpCsumField (m : Memory) (t : Nat) : Option Half := Memory.field16 m (t + 16)
def tcpUrg (m : Memory) (t : Nat) : Option Half := Memory.field16 m (t + 18)

end Sys2Proof.Machine
end

