-- ==== Sys2Proof/Machine/Script.lean ====
section
/-! DEFINITION. Host scripts (30_encoding.md R66) and the pseudo-instructions (R67): each line stands for a
list of host transactions and has no meaning beyond them. -/

namespace Sys2Proof.Machine

/-- A dotted IPv4 address a.b.c.d as the value of an address register (10_state.md R27). -/
def dotted (a b c d : Byte) : Word := a ++ b ++ c ++ d

/-- A mnemonic after `cmd` (R66). -/
inductive Command where
  | csum | ipBuild | tcpBuild | tcpCsum | segBuild
  deriving DecidableEq, Repr

/-- The command's instruction. -/
def Command.instr : Command → Instr
  | .csum => .csum | .ipBuild => .ipBuild | .tcpBuild => .tcpBuild
  | .tcpCsum => .tcpCsum | .segBuild => .segBuild

/-- A line of a host script: the five forms of R66 (with `wrAt` and `rdAt` for a NAME that is a host
address), then the pseudo-instructions of R67. -/
inductive ScriptLine where
  | wr (r : Reg) (v : Word)
  | rd (r : Reg)
  | wrAt (a : Addr) (v : Word)
  | rdAt (a : Addr)
  | wb (off : BufIndex) (b : Byte)
  | rb (off : BufIndex)
  | cmd (c : Command)
  | csum (o n : Word)
  | ipbuild (o n : Word)
  | tcpbuild (o : Word)
  | tcpcsum (o n : Word)
  | segbuild (o : Word)
  | addrs (s d : Word)
  | ports (sp dp : Nat)
  | tcpctl (syn ack win : Nat)
  | wbs (o : BufIndex) (bs : List Byte)
  | rbs (o : BufIndex) (k : Nat)
  deriving DecidableEq, Repr

/-- `wb o, b0 ; wb o+1, b1 ; …` (R67). -/
def expandWbs : BufIndex → List Byte → List Tx
  | _, [] => []
  | o, b :: bs => Tx.bufWrite o (b.setWidth 32) :: expandWbs (o + 1) bs

/-- `rb o ; rb o+1 ; …`, `k` of them (R67). -/
def expandRbs : BufIndex → Nat → List Tx
  | _, 0 => []
  | o, k + 1 => Tx.bufRead o :: expandRbs (o + 1) k

/-- The transactions of a line, in order; an assembler refuses `ports` and `tcpctl` operands out of range
(R67), and a run of bytes that leaves the 32768 indices a transaction can name. -/
def ScriptLine.expand : ScriptLine → Option (List Tx)
  | .wr r v => some [Tx.regWrite r v]
  | .rd r => some [Tx.regRead r]
  | .wrAt a v => some [{ dir := .write, size := .word, addr := a, data := v }]
  | .rdAt a => some [{ dir := .read, size := .word, addr := a, data := 0 }]
  | .wb o b => some [Tx.bufWrite o (b.setWidth 32)]
  | .rb o => some [Tx.bufRead o]
  | .cmd c => some [encode c.instr]
  | .csum o n => some [Tx.regWrite .offset o, Tx.regWrite .length n, encode .csum]
  | .ipbuild o n => some [Tx.regWrite .offset o, Tx.regWrite .length n, encode .ipBuild]
  | .tcpbuild o => some [Tx.regWrite .offset o, encode .tcpBuild]
  | .tcpcsum o n => some [Tx.regWrite .offset o, Tx.regWrite .length n, encode .tcpCsum]
  | .segbuild o => some [Tx.regWrite .offset o, encode .segBuild]
  | .addrs s d => some [Tx.regWrite .srcAddr s, Tx.regWrite .dstAddr d]
  | .ports sp dp =>
      if sp ≤ 0xFFFF ∧ dp ≤ 0xFFFF then
        some [Tx.regWrite .ports (BitVec.ofNat 16 sp ++ BitVec.ofNat 16 dp)]
      else none
  | .tcpctl syn ack win =>
      if syn ≤ 1 ∧ ack ≤ 1 ∧ win ≤ 0xFFFF then
        some [Tx.regWrite .tcpctl (0#14 ++ BitVec.ofNat 1 ack ++ BitVec.ofNat 1 syn ++ BitVec.ofNat 16 win)]
      else none
  | .wbs o bs => if o.toNat + bs.length ≤ 2 ^ 15 then some (expandWbs o bs) else none
  | .rbs o k => if o.toNat + k ≤ 2 ^ 15 then some (expandRbs o k) else none

/-- The transactions of a script, or nothing if the assembler refuses a line. -/
def expandScript : List ScriptLine → Option (List Tx)
  | [] => some []
  | l :: ls =>
      match l.expand, expandScript ls with
      | some ts, some rest => some (ts ++ rest)
      | _, _ => none

/-- The state with a host program, a list of transactions, to carry out (44_host_access.md R158). -/
def State.withProgram (s : State) (ts : List Tx) : State := { s with input := ts.map Input.tx }

end Sys2Proof.Machine
end

