-- ==== Sys2Proof/Safety.lean ====
section
/-! DEFINITION. The terms the statements are made in: the invariant of the state, what a run may end in,
and the spec's own second forms of things the machine computes another way (the closed form of the fold,
the 32-bit accumulator, the little-endian reading, decoding by fields). -/

namespace Sys2Proof.Machine

/-! ### The invariant -/

/-- The values STATUS can hold: none since reset, done, or one of the three errors (10_state.md R23,
60_exceptions.md R170, R171). -/
def legalStatus (v : Word) : Bool :=
  v == 0x00000000#32 || v == 0x00000001#32 || v == 0x00000012#32 || v == 0x00000022#32 || v == 0x00000032#32

/-- What every state of the ICU satisfies: the buffer's size is an allowed one (00_scope.md R7), its written
bytes stand in canonical form inside it (20_memory.md R40), the reserved bits of TCPCTL are zero
(10_state.md R32) and STATUS holds one of its values (10_state.md R23). -/
abbrev State.Inv (s : State) : Prop :=
  Config.minBufBytes ≤ s.bufBytes ∧ s.bufBytes ≤ Config.maxBufBytes ∧ Memory.wf s.buf = true ∧
    Memory.inside s.bufBytes s.buf = true ∧ s.tcpctl &&& 0xFFFC0000#32 = 0 ∧ legalStatus s.status = true

/-! ### Runs -/

/-- A safe step: it goes on (60_exceptions.md R175: a claim about a host program takes "no fault" as a
premise). -/
def goesOn : Host.Outcome State Fault Refusal → Bool
  | .next _ => true
  | .fault _ | .refused _ => false

/-- The five commands. -/
def isCommand : Instr → Bool
  | .csum | .ipBuild | .tcpBuild | .tcpCsum | .segBuild => true
  | .regRd _ | .regWr _ _ | .bufRd _ | .bufWr _ _ => false

/-- The commands that read a span of the buffer (20_memory.md R42). -/
def readsSpan : Instr → Bool
  | .csum | .tcpCsum => true
  | .ipBuild | .tcpBuild | .segBuild | .regRd _ | .regWr _ _ | .bufRd _ | .bufWr _ _ => false

/-- How many bytes from OFFSET a command needs inside the buffer (60_exceptions.md R170). -/
def spanBytes (s : State) : Instr → Nat
  | .csum | .tcpCsum => s.opLength
  | .ipBuild | .tcpBuild => 20
  | .segBuild => 40
  | .regRd _ | .regWr _ _ | .bufRd _ | .bufWr _ _ => 0

/-- How many bytes from OFFSET a command writes when it completes (20_memory.md R42). -/
def bytesStored : Instr → Nat
  | .ipBuild | .tcpBuild => 20
  | .segBuild => 40
  | .csum | .tcpCsum | .regRd _ | .regWr _ _ | .bufRd _ | .bufWr _ _ => 0

/-! ### Decoding by fields -/

/-- The field form of transaction decoding (30_encoding.md R61, `decodeTx`). -/
def decodeTxFields (bufBytes : Nat) (t : Tx) : Except DecodeError Instr :=
  if t.size = .word ∧ t.addr.extractLsb' 6 10 = 0#10 ∧ t.addr.extractLsb' 0 2 = 0#2 then
    match t.dir with
    | .read => .ok (.regRd (Reg.ofIndex (t.addr.extractLsb' 2 4)))
    | .write => .ok (.regWr (Reg.ofIndex (t.addr.extractLsb' 2 4)) t.data)
  else if t.size = .byte ∧ t.addr.getLsbD 15 = true ∧ t.addr.toNat - 0x8000 < bufBytes then
    match t.dir with
    | .read => .ok (.bufRd (BitVec.ofNat 15 (t.addr.toNat - 0x8000)))
    | .write => .ok (.bufWr (BitVec.ofNat 15 (t.addr.toNat - 0x8000)) t.data)
  else .error .busError

/-- The transactions that 30_encoding.md R61 lists as BusError: size 1 or 3; a 32-bit access that is
misaligned or at 0x0040 or above; an 8-bit access below 0x8000 or at or above 0x8000 + BUF_BYTES. -/
def badTx (bufBytes : Nat) (t : Tx) : Bool :=
  match t.size with
  | .half | .reserved => true
  | .word => decide (t.addr.toNat % 4 ≠ 0) || decide (0x40 ≤ t.addr.toNat)
  | .byte => decide (t.addr.toNat < 0x8000) || decide (0x8000 + bufBytes ≤ t.addr.toNat)

/-! ### The host's transactions, as 44_host_access.md tabulates them -/

/-- The value of a register (44_host_access.md R150): the plain contents, 0 for CMD and the reserved slots. -/
def regValue (s : State) : Reg → Word
  | .cmd => 0
  | .status => s.status
  | .result => s.result
  | .offset => s.offset.setWidth 32
  | .length => s.length.setWidth 32
  | .srcAddr => s.srcAddr
  | .dstAddr => s.dstAddr
  | .ports => s.ports
  | .seq => s.seq
  | .acknum => s.acknum
  | .tcpctl => s.tcpctl
  | .ipid => s.ipid.setWidth 32
  | .reserved _ => 0

/-- The write mask of a read/write register (44_host_access.md R155); the other slots have none. -/
def writeMask : Reg → Option Word
  | .offset => some 0x0000FFFF
  | .length => some 0x0000FFFF
  | .srcAddr => some 0xFFFFFFFF
  | .dstAddr => some 0xFFFFFFFF
  | .ports => some 0xFFFFFFFF
  | .seq => some 0xFFFFFFFF
  | .acknum => some 0xFFFFFFFF
  | .tcpctl => some 0x0003FFFF
  | .ipid => some 0x0000FFFF
  | .cmd | .status | .result | .reserved _ => none

/-- The step function of 44_host_access.md R159 on a transaction that has arrived: `decodeTx` gives no
command of its own, a write to CMD runs one. -/
def stepFunction (s : State) (t : Tx) : Host.Outcome State Fault Refusal :=
  match decodeTxFields s.bufBytes t with
  | .error _ => .fault .busError
  | .ok (.regRd r) => .next { s with reads := s.reads ++ [s.readReg r] }
  | .ok (.regWr .cmd d) => runCommand d s
  | .ok (.regWr r d) => .next (s.writeReg r d)
  | .ok (.bufRd i) =>
      match Memory.read s.buf i.toNat with
      | none => .fault .unwrittenByte
      | some b => .next { s with reads := s.reads ++ [b.setWidth 32] }
  | .ok (.bufWr i d) => .next { s with buf := Memory.write s.buf i.toNat (d.extractLsb' 0 8) }
  | .ok .csum | .ok .ipBuild | .ok .tcpBuild | .ok .tcpCsum | .ok .segBuild => .fault .busError

/-! ### What two states share -/

/-- The parameter registers, the buffer's size, the pending actions and the values read are the same. -/
abbrev SameParams (s t : State) : Prop :=
  t.offset = s.offset ∧ t.length = s.length ∧ t.srcAddr = s.srcAddr ∧ t.dstAddr = s.dstAddr ∧
    t.ports = s.ports ∧ t.seq = s.seq ∧ t.acknum = s.acknum ∧ t.tcpctl = s.tcpctl ∧ t.ipid = s.ipid ∧
    t.bufBytes = s.bufBytes ∧ t.input = s.input ∧ t.reads = s.reads

/-- The same change made to the next state of an outcome. -/
def mapNext (f : State → State) : Host.Outcome State Fault Refusal → Host.Outcome State Fault Refusal
  | .next t => .next (f t)
  | .fault x => .fault x
  | .refused x => .refused x

/-- `bytes` stand in the buffer from offset `o` on. -/
abbrev HoldsAt (m : Memory) (o : Nat) (bytes : List Byte) : Prop :=
  ∀ k, k < bytes.length → Memory.read m (o + k) = bytes[k]?

/-! ### Second forms of the checksum -/

/-- The closed form of the fold (40_checksum.md R82). -/
def foldClosed (a : Nat) : Nat := if a = 0 then 0 else (a - 1) % 0xFFFF + 1

/-- Adding the words into a 32-bit accumulator (40_checksum.md R82, R84, 92 D10). -/
def accumulate32 : Word → List Half → Word
  | acc, [] => acc
  | acc, w :: ws => accumulate32 (acc + w.setWidth 32) ws

/-- One pass of the fold on a 32-bit accumulator: `a[15:0] + a[31:16]`. -/
def foldPass32 (a : Word) : Word :=
  (a.extractLsb' 0 16 : BitVec 16).setWidth 32 + (a.extractLsb' 16 16 : BitVec 16).setWidth 32

/-- The loop of R82 on a 32-bit accumulator, cut off after two passes. -/
def fold32 (a : Word) : Half :=
  let once := if a.extractLsb' 16 16 = 0#16 then a else foldPass32 a
  let twice := if once.extractLsb' 16 16 = 0#16 then once else foldPass32 once
  twice.extractLsb' 0 16

/-- Folding once per added word (40_checksum.md R84). -/
def foldEach : Nat → List Half → Nat
  | acc, [] => acc
  | acc, w :: ws => foldEach (fold (acc + w.toNat)).toNat ws

/-- The checksum on a 32-bit accumulator. -/
def icsum32 (s : List Byte) : Half := ~~~ (fold32 (accumulate32 0 (wordsOf s)))

/-- `swap16(x) = (x[7:0] << 8) | x[15:8]` (40_checksum.md R94). -/
def swap16 (v : Half) : Half := ofBytes16 (loByte v) (hiByte v)

/-- The words of the source's little-endian reading: `w_i = s[2i] | (s[2i+1] << 8)`, an odd final byte the
low byte of its word (R94). -/
def wordsOfLE : List Byte → List Half
  | [] => []
  | [b] => [ofBytes16 0 b]
  | a :: b :: rest => ofBytes16 b a :: wordsOfLE rest

/-- The checksum of the little-endian reading (R94, `ICSUM_LE`). -/
def icsumLE (s : List Byte) : Half := ~~~ (fold (sumWords (wordsOfLE s)))

end Sys2Proof.Machine
end

