-- ==== Sys2Proof/Certificates/Slice0/Obligations.lean ====
section
/-! DEFINITION. The statements for the provers, each from the numbered rules of spec/. Every statement is
about every state and every operand its hypotheses admit; an outcome written `.next { s with … }` is also
the frame: everything not named is as it was. -/

open Sys2Proof Sys2Proof.Machine

/-! ### Reset -/

/-- 10_state.md R35: every register holds 0 after reset, and no byte of the buffer is written, whatever the
buffer's size. -/
def Obligations.ResetLeavesRegistersZero : Prop :=
  ∀ n : Nat,
    (∀ r, (State.resetOf n).readReg r = 0) ∧
      (State.resetOf n).status = 0 ∧ (State.resetOf n).result = 0 ∧ (State.resetOf n).offset = 0 ∧
      (State.resetOf n).length = 0 ∧ (State.resetOf n).srcAddr = 0 ∧ (State.resetOf n).dstAddr = 0 ∧
      (State.resetOf n).ports = 0 ∧ (State.resetOf n).seq = 0 ∧ (State.resetOf n).acknum = 0 ∧
      (State.resetOf n).tcpctl = 0 ∧ (State.resetOf n).ipid = 0 ∧
      (∀ a, Memory.read (State.resetOf n).buf a = none) ∧ State.reset = State.resetOf State.reset.bufBytes

/-- 70_reset_and_hazards.md R190, R192: the reset input gives every register its reset value and makes
every byte unspecified again. That the pending actions, the values read and the buffer's size stay is the
model's (log entries 1, 2, 3). -/
def Obligations.ResetInputClearsEverything : Prop :=
  ∀ (s : State) (rest : List Input), s.input = .reset :: rest →
    ∃ t, step s = .next t ∧ (∀ r, t.readReg r = 0) ∧ (∀ a, Memory.read t.buf a = none) ∧
      t.status = 0 ∧ t.tcpctl = 0 ∧ t.bufBytes = s.bufBytes ∧ t.input = rest ∧ t.reads = s.reads

/-- 70_reset_and_hazards.md R193: a reset that discards a command leaves what a reset after the command
leaves, so a model in which a reset falls between transactions loses nothing. -/
def Obligations.ResetInPlaceOfCommandIsResetAfterIt : Prop :=
  ∀ (c : Instr) (s t : State), isCommand c = true → exec c s = .next t → applyReset t = applyReset s

/-! ### Encoding -/

/-- Words written out from 30_encoding.md R61 and R64, one or more for each row of the opcode table, and
words that are no instruction. -/
def Obligations.SampleWordsDecode : Prop :=
  decodeTableWord 32 0x00000001 = some .csum ∧ decodeTableWord 32 0x00000002 = some .ipBuild ∧
    decodeTableWord 32 0x00000003 = some .tcpBuild ∧ decodeTableWord 32 0x00000004 = some .tcpCsum ∧
    decodeTableWord 32 0x00000005 = some .segBuild ∧
    decodeTableWord 24 0x20004 = some (.regRd .status) ∧ decodeTableWord 24 0x2003C = some (.regRd (.reserved 3)) ∧
    decodeTableWord 24 0x6000C = some (.regWr .offset 0) ∧ decodeTableWord 24 0x60000 = some (.regWr .cmd 0) ∧
    decodeTableWord 24 0x08009 = some (.bufRd 9) ∧ decodeTableWord 24 0x487FF = some (.bufWr 2047 0) ∧
    decodeTableWord 24 0x08800 = none ∧ decodeTableWord 24 0x20002 = none ∧ decodeTableWord 24 0x20040 = none ∧
    decodeTableWord 24 0x18000 = none ∧ decodeTableWord 24 0x30000 = none

/-- 30_encoding.md R64: the five legal command words are exactly 1 to 5, each with its command, and every
other word is illegal. -/
def Obligations.FiveLegalCommandWords : Prop :=
  ∀ w : Word,
    (decodeCmd w = .ok .csum ↔ w = 0x00000001#32) ∧ (decodeCmd w = .ok .ipBuild ↔ w = 0x00000002#32) ∧
      (decodeCmd w = .ok .tcpBuild ↔ w = 0x00000003#32) ∧ (decodeCmd w = .ok .tcpCsum ↔ w = 0x00000004#32) ∧
      (decodeCmd w = .ok .segBuild ↔ w = 0x00000005#32) ∧
      (decodeCmd w = .error .illegalCommand ↔
        w ≠ 0x00000001#32 ∧ w ≠ 0x00000002#32 ∧ w ≠ 0x00000003#32 ∧ w ≠ 0x00000004#32 ∧ w ≠ 0x00000005#32)

/-- 30_encoding.md R60 to R64: every well-formed instruction is the decoding of its encoding, with every
operand at every value, for every buffer size. -/
def Obligations.DecodeOfEncodeIsTheInstruction : Prop :=
  ∀ (n : Nat) (i : Instr), i.wf n = true → decode n (encode i) = .ok i

/-- 30_encoding.md R60 to R64: what decodes is well formed, and its encoding has the transaction's header
and, for a write, the transaction's data. -/
def Obligations.EncodeOfDecodeIsTheTransaction : Prop :=
  ∀ (n : Nat) (t : Tx) (i : Instr), decode n t = .ok i →
    i.wf n = true ∧ (encode i).header = t.header ∧ (t.dir = .write → encode i = t)

/-- 30_encoding.md R61: the match and mask table and the field form of decoding agree on every
transaction and every buffer size. -/
def Obligations.TableDecodeIsFieldDecode : Prop :=
  ∀ (n : Nat) (t : Tx), decodeTx n t = decodeTxFields n t

/-- 30_encoding.md R61: no header matches two rows of the table. -/
def Obligations.NoHeaderMatchesTwoRows : Prop :=
  ∀ (h : BitVec 19) (r q : TxRow), r ∈ txRows → q ∈ txRows → r.hits h = true → q.hits h = true → r = q

/-- 30_encoding.md R61, 44_host_access.md R157: exactly the listed transactions are BusError transactions;
every other one decodes to an instruction. -/
def Obligations.BadTransactionsAreBusErrors : Prop :=
  ∀ (n : Nat) (t : Tx),
    (badTx n t = true → decode n t = .error .busError) ∧ (badTx n t = false → ∃ i, decode n t = .ok i)

/-! ### The step -/

/-- 44_host_access.md R159: a step runs the decoded instruction on the state with its transaction taken off
the list. -/
def Obligations.StepRunsTheDecodedInstruction : Prop :=
  ∀ (s : State) (t : Tx) (rest : List Input) (i : Instr), s.input = .tx t :: rest →
    decode s.bufBytes t = .ok i → step s = exec i { s with input := rest }

/-- 44_host_access.md R159: one step on one transaction is the step function, every kind of transaction
and BUS_ERROR included. -/
def Obligations.StepIsTheStepFunction : Prop :=
  ∀ (s : State) (t : Tx) (rest : List Input), s.input = .tx t :: rest →
    step s = stepFunction { s with input := rest } t

/-- 44_host_access.md R158 and the model's own fields (log entries 1, 2, 3): a step takes one action off the
list, adds at most one value to the values read, and never changes the buffer's size. With nothing pending
a step changes nothing: that is the model's choice (log entry 1), beside 10_state.md R22 (the ICU runs
nothing on its own). -/
def Obligations.StepTakesOneActionAndKeepsTheSize : Prop :=
  (∀ s t : State, step s = .next t →
      t.input = s.input.tail ∧ t.bufBytes = s.bufBytes ∧ (t.reads = s.reads ∨ ∃ v, t.reads = s.reads ++ [v])) ∧
    ∀ s : State, s.input = [] → step s = .next s

/-! ### Host transactions -/

/-- 44_host_access.md R150: a register read returns the register's value and changes nothing else. -/
def Obligations.RegisterReadReturnsItsValue : Prop :=
  ∀ (s : State) (r : Reg),
    exec (.regRd r) s = .next { s with reads := s.reads ++ [s.readReg r] } ∧
      (s.Inv → s.readReg r = regValue s r)

/-- 44_host_access.md R151, R155: a write of a read/write register stores the bits of its mask, in that
register only. -/
def Obligations.RegisterWriteStoresTheMaskedValue : Prop :=
  ∀ (s : State) (r : Reg) (d m : Word), writeMask r = some m →
    ∃ t, exec (.regWr r d) s = .next t ∧ t.readReg r = d &&& m ∧ regValue t r = d &&& m ∧
      (∀ q, q ≠ r → regValue t q = regValue s q) ∧
      t.buf = s.buf ∧ t.bufBytes = s.bufBytes ∧ t.input = s.input ∧ t.reads = s.reads

/-- 10_state.md R34, 44_host_access.md R151 (indices 1, 2, 12 to 15): a reserved slot reads 0 and a write to
it changes no state; host writes to STATUS and RESULT change no state either. -/
def Obligations.ReservedAndReadOnlySlotsIgnoreWrites : Prop :=
  ∀ (s : State) (k : Fin 4) (d : Word),
    exec (.regRd (.reserved k)) s = .next { s with reads := s.reads ++ [0] } ∧
      exec (.regWr (.reserved k) d) s = .next s ∧
      exec (.regWr .status d) s = .next s ∧ exec (.regWr .result d) s = .next s

/-- 44_host_access.md R152: a buffer read returns the byte zero-extended; an index outside the buffer is a
BusError. That an unwritten byte, whose value R152 leaves unspecified, is the fault UnwrittenByte is
70_reset_and_hazards.md R192's first form, as R159 and 60_exceptions.md R175 have it, and the model's choice
of the two R192 allows (log entry 4). -/
def Obligations.BufferReadReturnsTheByte : Prop :=
  ∀ (s : State) (i : BufIndex),
    (∀ b, i.toNat < s.bufBytes → Memory.read s.buf i.toNat = some b →
        exec (.bufRd i) s = .next { s with reads := s.reads ++ [b.setWidth 32] }) ∧
      (i.toNat < s.bufBytes → Memory.read s.buf i.toNat = none → exec (.bufRd i) s = .fault .unwrittenByte) ∧
      (s.bufBytes ≤ i.toNat → exec (.bufRd i) s = .fault .busError)

/-- 44_host_access.md R153: a buffer write stores `d[7:0]` in the one byte and changes nothing else; an index
outside the buffer is a BusError. -/
def Obligations.BufferWriteStoresTheLowByte : Prop :=
  ∀ (s : State) (i : BufIndex) (d : Word),
    (i.toNat < s.bufBytes →
        ∃ t, exec (.bufWr i d) s = .next t ∧ t = { s with buf := t.buf } ∧
          Memory.read t.buf i.toNat = some (d.extractLsb' 0 8) ∧
          ∀ a, a ≠ i.toNat → Memory.read t.buf a = Memory.read s.buf a) ∧
      (s.bufBytes ≤ i.toNat → exec (.bufWr i d) s = .fault .busError)

/-- 20_memory.md R49, R53: a buffer read right after a buffer write of the same byte returns the byte
written, and a write before it is seen through writes of other bytes. -/
def Obligations.BufferReadSeesTheLastWrite : Prop :=
  ∀ (s t u : State) (i j : BufIndex) (d e : Word),
    i ≠ j → exec (.bufWr i d) s = .next t → exec (.bufWr j e) t = .next u →
      exec (.bufRd i) u = .next { u with reads := s.reads ++ [(d.extractLsb' 0 8).setWidth 32] } ∧
        exec (.bufRd j) u = .next { u with reads := s.reads ++ [(e.extractLsb' 0 8).setWidth 32] }

/-- 44_host_access.md R154: a write of CMD runs the command its data encodes, an illegal word raises
ILLEGAL_CMD, and whatever the word, no parameter register changes. -/
def Obligations.CommandWriteRunsTheCommand : Prop :=
  ∀ (s : State) (d : Word),
    (∀ i, decodeCmd d = .ok i → exec (.regWr .cmd d) s = exec i s) ∧
      (decodeCmd d = .error .illegalCommand → exec (.regWr .cmd d) s = .next { s with status := 0x00000012 }) ∧
      ∀ t, exec (.regWr .cmd d) s = .next t → SameParams s t

/-! ### The checksum function -/

/-- 40_checksum.md R82: the loop and the closed form agree, two passes are enough for a 32-bit accumulator,
and the order of the words does not change the sum. -/
def Obligations.FoldHasTheClosedForm : Prop :=
  (∀ a : Nat, (fold a).toNat = foldClosed a) ∧
    (∀ a : Nat, a < 2 ^ 32 → (fold a).toNat = foldPass (foldPass a) ∧ fold32 (BitVec.ofNat 32 a) = fold a) ∧
    ∀ ws vs : List Half, List.Perm ws vs → fold (sumWords ws) = fold (sumWords vs)

/-- 40_checksum.md R84: the sum of the longest input any command passes fits a 32-bit accumulator, as does
that of a 65535-byte span with the pseudo-header; the 32-bit engine then computes the checksum, and folding
once per added word gives the same sum. -/
def Obligations.AccumulatorHoldsTheSum : Prop :=
  (∀ s : List Byte, s.length ≤ 12 + 32768 → sumWords (wordsOf s) ≤ 1074118650) ∧
    (∀ s : List Byte, s.length ≤ 12 + 65535 →
      sumWords (wordsOf s) ≤ 2147844090 ∧ (accumulate32 0 (wordsOf s)).toNat = sumWords (wordsOf s) ∧
        icsum32 s = icsum s) ∧
    ∀ ws : List Half, foldEach 0 ws = (fold (sumWords ws)).toNat

/-- 40_checksum.md R85: the checksum of nothing is all ones, and a zero-length span is legal for CSUM and
for TCP_CSUM, where it leaves only the pseudo-header. -/
def Obligations.ZeroLengthSpanIsLegal : Prop :=
  icsum [] = 0xFFFF#16 ∧
    ∀ s : State, s.length = 0 → s.opOffset ≤ s.bufBytes →
      exec .csum s = .next { s with result := 0x0000FFFF, status := 0x00000001 } ∧
        exec .tcpCsum s =
          .next { s with result := (icsum (pseudoHeader s.srcAddr s.dstAddr 0)).setWidth 32, status := 0x00000001 }

/-- 40_checksum.md R88: when the sum and the checksum take their extreme values. -/
def Obligations.ChecksumExtremes : Prop :=
  ∀ s : List Byte,
    (ocsum s = 0 ↔ ∀ b ∈ s, b = 0) ∧ (icsum s = 0xFFFF#16 ↔ ∀ b ∈ s, b = 0) ∧
      (icsum s = 0 ↔ ocsum s = 0xFFFF#16)

/-- 40_checksum.md R89: an odd span has the checksum of the span with a zero byte after it. -/
def Obligations.OddSpanIsPaddedAtItsEnd : Prop :=
  ∀ s : List Byte, s.length % 2 = 1 → icsum s = icsum (s ++ [0])

/-- 40_checksum.md R90: an even span with its checksum appended sums to negative zero, and its checksum is
zero. -/
def Obligations.AppendedChecksumValidates : Prop :=
  ∀ s : List Byte, s.length % 2 = 0 →
    ocsum (s ++ be16 (icsum s)) = 0xFFFF#16 ∧ icsum (s ++ be16 (icsum s)) = 0

/-- 40_checksum.md R91: a zero field at an even position, filled with the checksum, makes the checksum
zero. -/
def Obligations.ChecksumInsideSpanValidates : Prop :=
  ∀ (s : List Byte) (p : Nat), p % 2 = 0 → s[p]? = some 0 → s[p + 1]? = some 0 →
    icsum (putBe16 s p (icsum s)) = 0

/-- 40_checksum.md R92: replacing a zero word by all ones, or the other way round, changes the sum only
when everything else is zero. -/
def Obligations.ZeroWordAndOnesWordSumAlike : Prop :=
  ∀ (s : List Byte) (p : Nat), p % 2 = 0 → p + 1 < s.length →
    ((∃ b ∈ putBe16 s p 0, b ≠ 0) → ocsum (putBe16 s p 0xFFFF#16) = ocsum (putBe16 s p 0)) ∧
      ((∀ b ∈ putBe16 s p 0, b = 0) → ocsum (putBe16 s p 0) = 0 ∧ ocsum (putBe16 s p 0xFFFF#16) = 0xFFFF#16)

/-- 40_checksum.md R93: two whole words may change places, two bytes of different words generally may
not, and CSUM does not see where in the buffer its span stands. -/
def Obligations.ChecksumIsPositionIndependent : Prop :=
  (∀ (pre mid post : List Byte) (a b c d : Byte), pre.length % 2 = 0 → mid.length % 2 = 0 →
      icsum (pre ++ [a, b] ++ mid ++ [c, d] ++ post) = icsum (pre ++ [c, d] ++ mid ++ [a, b] ++ post)) ∧
    (∃ a b c d : Byte, icsum [a, b, c, d] ≠ icsum [d, b, c, a]) ∧
    ∀ (s t u : State) (bytes : List Byte), bytes.length = s.opLength → t.length = s.length →
      s.opOffset + s.opLength ≤ s.bufBytes → t.opOffset + t.opLength ≤ t.bufBytes →
      HoldsAt s.buf s.opOffset bytes → HoldsAt t.buf t.opOffset bytes →
      exec .csum s = .next u → exec .csum t = .next { t with result := u.result, status := u.status }

/-- 40_checksum.md R94: the little-endian reading stores the same two bytes. -/
def Obligations.LittleEndianReadingStoresTheSameBytes : Prop :=
  ∀ s : List Byte, icsumLE s = swap16 (icsum s) ∧ [loByte (icsumLE s), hiByte (icsumLE s)] = be16 (icsum s)

/-! ### The commands that read the buffer -/

/-- 40_checksum.md R86: CSUM, command word 1, puts the checksum of the span into RESULT and DONE into STATUS, or raises
RANGE. -/
def Obligations.CsumComputesTheChecksum : Prop :=
  decodeCmd 0x00000001 = .ok .csum ∧ ∀ s : State,
    (∀ bytes, s.opOffset + s.opLength ≤ s.bufBytes → bytes.length = s.opLength →
        HoldsAt s.buf s.opOffset bytes →
        exec .csum s = .next { s with result := (icsum bytes).setWidth 32, status := 0x00000001 }) ∧
      (s.bufBytes < s.opOffset + s.opLength → exec .csum s = .next { s with status := 0x00000022 })

/-- 42_tcp_checksum.md R128: TCP_CSUM, command word 4, puts the checksum of the pseudo-header and the segment as it stands
into RESULT, or raises RANGE. -/
def Obligations.TcpCsumComputesTheSegmentChecksum : Prop :=
  decodeCmd 0x00000004 = .ok .tcpCsum ∧ ∀ s : State,
    (∀ bytes, s.opOffset + s.opLength ≤ s.bufBytes → bytes.length = s.opLength →
        HoldsAt s.buf s.opOffset bytes →
        exec .tcpCsum s =
          .next { s with
            result := (icsum (be32 s.srcAddr ++ be32 s.dstAddr ++ [0x00, 0x06] ++ be16 s.length ++ bytes)).setWidth 32,
            status := 0x00000001 }) ∧
      (s.bufBytes < s.opOffset + s.opLength → exec .tcpCsum s = .next { s with status := 0x00000022 })

/-- 70_reset_and_hazards.md R192, 60_exceptions.md R175: a command that would read an unwritten byte is the
fault UnwrittenByte. -/
def Obligations.UnwrittenSpanByteFaults : Prop :=
  ∀ (s : State) (k : Nat), s.opOffset + s.opLength ≤ s.bufBytes → k < s.opLength →
    Memory.read s.buf (s.opOffset + k) = none →
    exec .csum s = .fault .unwrittenByte ∧ exec .tcpCsum s = .fault .unwrittenByte

/-- 42_tcp_checksum.md R131: TCP_CSUM gives the same result whichever way round the two addresses are
loaded. -/
def Obligations.SwappedAddressesGiveTheSameChecksum : Prop :=
  ∀ s t : State, exec .tcpCsum s = .next t →
    exec .tcpCsum { s with srcAddr := s.dstAddr, dstAddr := s.srcAddr } =
      .next { t with srcAddr := s.dstAddr, dstAddr := s.srcAddr }

/-! ### The commands that write the buffer -/

/-- 41_ipv4_header.md R106: the header function, byte for byte, and its checksum's arithmetic. -/
def Obligations.IpHeaderFunction : Prop :=
  ∀ (tl ident : Half) (src dst : Word),
    ipChecksum tl ident src dst =
        icsum ([0x45, 0x00] ++ be16 tl ++ be16 ident ++ [0x00, 0x00, 0x40, 0x06] ++ [0x00, 0x00] ++ be32 src ++ be32 dst) ∧
      ipHeader tl ident src dst =
        [0x45, 0x00] ++ be16 tl ++ be16 ident ++ [0x00, 0x00, 0x40, 0x06] ++ be16 (ipChecksum tl ident src dst)
          ++ be32 src ++ be32 dst ∧
      (ipChecksum tl ident src dst).toNat =
        0xFFFF - foldClosed (0x4500 + tl.toNat + ident.toNat + 0x4006 + (src.extractLsb' 16 16).toNat
          + (src.extractLsb' 0 16).toNat + (dst.extractLsb' 16 16).toNat + (dst.extractLsb' 0 16).toNat)

/-- 41_ipv4_header.md R107: IP_BUILD, command word 2, writes the 20 header bytes and nothing else, RESULT and STATUS; or
raises RANGE, or LENGTH_OVF. -/
def Obligations.IpBuildWritesTheHeader : Prop :=
  decodeCmd 0x00000002 = .ok .ipBuild ∧ ∀ s : State,
    (s.opOffset + 20 ≤ s.bufBytes → 20 + s.opLength ≤ 0xFFFF →
        ∃ t c, exec .ipBuild s = .next t ∧ c = ipChecksum (BitVec.ofNat 16 (20 + s.opLength)) s.ipid s.srcAddr s.dstAddr ∧
          t = { s with buf := t.buf, result := c.setWidth 32, status := 0x00000001 } ∧
          Memory.readSpan t.buf s.opOffset 20 =
            some ([0x45, 0x00] ++ be16 (BitVec.ofNat 16 (20 + s.opLength)) ++ be16 s.ipid ++ [0x00, 0x00, 0x40, 0x06]
              ++ be16 c ++ be32 s.srcAddr ++ be32 s.dstAddr) ∧
          ∀ a, a < s.opOffset ∨ s.opOffset + 20 ≤ a → Memory.read t.buf a = Memory.read s.buf a) ∧
      (s.bufBytes < s.opOffset + 20 → exec .ipBuild s = .next { s with status := 0x00000022 }) ∧
      (s.opOffset + 20 ≤ s.bufBytes → 0xFFFF < 20 + s.opLength →
        exec .ipBuild s = .next { s with status := 0x00000032 })

/-- 42_tcp_checksum.md R124: the TCP header function, byte for byte. -/
def Obligations.TcpHeaderFunction : Prop :=
  ∀ (src dst : Word) (f : TcpFields),
    let flags := f.ackf.setWidth 8 <<< 4 ||| f.synf.setWidth 8 <<< 1
    tcpChecksum src dst f =
        icsum (be32 src ++ be32 dst ++ [0x00, 0x06, 0x00, 0x14] ++ be16 f.sport ++ be16 f.dport ++ be32 f.seq
          ++ be32 f.ack ++ [0x50, flags] ++ be16 f.win ++ [0x00, 0x00] ++ [0x00, 0x00]) ∧
      tcpHeader src dst f =
        be16 f.sport ++ be16 f.dport ++ be32 f.seq ++ be32 f.ack ++ [0x50, flags] ++ be16 f.win
          ++ be16 (tcpChecksum src dst f) ++ [0x00, 0x00]

/-- 42_tcp_checksum.md R126: TCP_BUILD, command word 3, writes the 20 header bytes of the parameter registers and nothing
else, RESULT and STATUS; or raises RANGE. -/
def Obligations.TcpBuildWritesTheHeader : Prop :=
  decodeCmd 0x00000003 = .ok .tcpBuild ∧ ∀ s : State,
    (s.opOffset + 20 ≤ s.bufBytes →
        ∃ t c, exec .tcpBuild s = .next t ∧ c = tcpChecksum s.srcAddr s.dstAddr s.opTcp ∧
          t = { s with buf := t.buf, result := c.setWidth 32, status := 0x00000001 } ∧
          Memory.readSpan t.buf s.opOffset 20 =
            some (be16 (s.ports.extractLsb' 16 16) ++ be16 (s.ports.extractLsb' 0 16) ++ be32 s.seq ++ be32 s.acknum
              ++ [0x50#8, (s.tcpctl.extractLsb' 17 1).setWidth 8 <<< 4 ||| (s.tcpctl.extractLsb' 16 1).setWidth 8 <<< 1]
              ++ be16 (s.tcpctl.extractLsb' 0 16) ++ be16 c ++ [0x00, 0x00]) ∧
          ∀ a, a < s.opOffset ∨ s.opOffset + 20 ≤ a → Memory.read t.buf a = Memory.read s.buf a) ∧
      (s.bufBytes < s.opOffset + 20 → exec .tcpBuild s = .next { s with status := 0x00000022 })

/-- 43_segment_build.md R141: SEG_BUILD, command word 5, writes both headers, 40 bytes, and nothing else, with both checksums
in RESULT; or raises RANGE. -/
def Obligations.SegBuildWritesBothHeaders : Prop :=
  decodeCmd 0x00000005 = .ok .segBuild ∧ ∀ s : State,
    (s.opOffset + 40 ≤ s.bufBytes →
        ∃ t, exec .segBuild s = .next t ∧
          t = { s with
            buf := t.buf,
            result := (ipChecksum 40 s.ipid s.srcAddr s.dstAddr).setWidth 32 <<< 16
              ||| (tcpChecksum s.srcAddr s.dstAddr s.opTcp).setWidth 32,
            status := 0x00000001 } ∧
          Memory.readSpan t.buf s.opOffset 40 =
            some (ipHeader 40 s.ipid s.srcAddr s.dstAddr ++ tcpHeader s.srcAddr s.dstAddr s.opTcp) ∧
          ∀ a, a < s.opOffset ∨ s.opOffset + 40 ≤ a → Memory.read t.buf a = Memory.read s.buf a) ∧
      (s.bufBytes < s.opOffset + 40 → exec .segBuild s = .next { s with status := 0x00000022 })

/-- 43_segment_build.md R142: SEG_BUILD leaves the buffer as IP_BUILD and then TCP_BUILD leave it, keeps
OFFSET and LENGTH, and holds both checksums; the two ways raise RANGE under different conditions. -/
def Obligations.SegBuildIsIpBuildThenTcpBuild : Prop :=
  ∀ s : State, s.bufBytes ≤ Config.maxBufBytes →
    (s.opOffset + 40 ≤ s.bufBytes →
        ∃ t u v, exec .segBuild s = .next t ∧ exec .ipBuild { s with length := 20 } = .next u ∧
          exec .tcpBuild { u with offset := s.offset + 20 } = .next v ∧ t.buf = v.buf ∧
          t.offset = s.offset ∧ t.length = s.length ∧ t.result = u.result <<< 16 ||| v.result) ∧
      (s.opOffset + 20 ≤ s.bufBytes → s.bufBytes < s.opOffset + 40 →
        exec .segBuild s = .next { s with status := 0x00000022 } ∧
          ∃ u, exec .ipBuild { s with length := 20 } = .next u ∧ u.status = 0x00000001 ∧
            exec .tcpBuild { u with offset := s.offset + 20 } =
              .next { u with offset := s.offset + 20, status := 0x00000022 }) ∧
      (s.bufBytes < s.opOffset + 20 →
        exec .segBuild s = .next { s with status := 0x00000022 } ∧
          exec .ipBuild { s with length := 20 } = .next { s with length := 20, status := 0x00000022 })

/-- 43_segment_build.md R144: after SEG_BUILD both checksums verify, and the accessors find the TCP
header. -/
def Obligations.SegBuildDatagramVerifies : Prop :=
  ∀ s : State, s.bufBytes ≤ Config.maxBufBytes → s.opOffset + 40 ≤ s.bufBytes →
    ∃ t, exec .segBuild s = .next t ∧
      exec .csum { t with length := 20 } = .next { t with length := 20, result := 0, status := 0x00000001 } ∧
      exec .tcpCsum { t with offset := s.offset + 20, length := 20 } =
        .next { t with offset := s.offset + 20, length := 20, result := 0, status := 0x00000001 } ∧
      ipTotlen t.buf s.opOffset = some 40 ∧ tcpStart t.buf s.opOffset = some (s.opOffset + 20)

/-- 41_ipv4_header.md R108: every IPv4 header that IP_BUILD or SEG_BUILD writes has checksum zero, and
CSUM over it returns 0. -/
def Obligations.IpHeaderValidates : Prop :=
  (∀ (tl ident : Half) (src dst : Word), icsum (ipHeader tl ident src dst) = 0) ∧
    (∀ s : State, s.opOffset + 20 ≤ s.bufBytes → 20 + s.opLength ≤ 0xFFFF →
      ∃ t, exec .ipBuild s = .next t ∧
        exec .csum { t with length := 20 } = .next { t with length := 20, result := 0, status := 0x00000001 }) ∧
    ∀ s : State, s.opOffset + 40 ≤ s.bufBytes →
      ∃ t, exec .segBuild s = .next t ∧
        exec .csum { t with length := 20 } = .next { t with length := 20, result := 0, status := 0x00000001 }

/-- 42_tcp_checksum.md R129: every TCP header that TCP_BUILD writes verifies under its pseudo-header, TCP_CSUM
over it returns 0, and so does any segment whose checksum field holds its checksum. -/
def Obligations.TcpHeaderVerifies : Prop :=
  (∀ (src dst : Word) (f : TcpFields), icsum (pseudoHeader src dst 20 ++ tcpHeader src dst f) = 0) ∧
    (∀ s : State, s.opOffset + 20 ≤ s.bufBytes →
      ∃ t, exec .tcpBuild s = .next t ∧
        exec .tcpCsum { t with length := 20 } = .next { t with length := 20, result := 0, status := 0x00000001 }) ∧
    ∀ (s : State) (seg : List Byte), seg.length = s.opLength → 18 ≤ seg.length →
      s.opOffset + s.opLength ≤ s.bufBytes →
      HoldsAt s.buf s.opOffset
        (putBe16 seg 16 (icsum (pseudoHeader s.srcAddr s.dstAddr s.length ++ putBe16 seg 16 0))) →
      exec .tcpCsum s = .next { s with result := 0, status := 0x00000001 }

/-- 41_ipv4_header.md R109: the accessors give back what IP_BUILD was given. -/
def Obligations.IpHeaderRoundTrip : Prop :=
  ∀ s : State, s.opOffset + 20 ≤ s.bufBytes → 20 + s.opLength ≤ 0xFFFF →
    ∃ t, exec .ipBuild s = .next t ∧
      ipVersion t.buf s.opOffset = some 4 ∧ ipIhl t.buf s.opOffset = some 5 ∧ ipTos t.buf s.opOffset = some 0 ∧
      ipTotlen t.buf s.opOffset = some (BitVec.ofNat 16 (20 + s.opLength)) ∧
      ipIdent t.buf s.opOffset = some s.ipid ∧ ipFragword t.buf s.opOffset = some 0 ∧
      ipTtl t.buf s.opOffset = some 64 ∧ ipProto t.buf s.opOffset = some 6 ∧
      ipSrc t.buf s.opOffset = some s.srcAddr ∧ ipDst t.buf s.opOffset = some s.dstAddr

/-- 42_tcp_checksum.md R130: the accessors give back what TCP_BUILD was given. -/
def Obligations.TcpHeaderRoundTrip : Prop :=
  ∀ s : State, s.opOffset + 20 ≤ s.bufBytes →
    ∃ t, exec .tcpBuild s = .next t ∧
      tcpSport t.buf s.opOffset = some s.opSport ∧ tcpDport t.buf s.opOffset = some s.opDport ∧
      tcpSeq t.buf s.opOffset = some s.seq ∧ tcpAck t.buf s.opOffset = some s.acknum ∧
      tcpDoff t.buf s.opOffset = some 5 ∧ tcpSyn t.buf s.opOffset = some s.opSyn ∧
      tcpAckf t.buf s.opOffset = some s.opAck ∧
      tcpFlags t.buf s.opOffset = some (s.opAck.setWidth 8 <<< 4 ||| s.opSyn.setWidth 8 <<< 1) ∧
      tcpWin t.buf s.opOffset = some s.opWindow ∧ tcpUrg t.buf s.opOffset = some 0

/-- 43_segment_build.md R145: the accessors give back every operand of SEG_BUILD and the fixed fields. -/
def Obligations.DatagramRoundTrip : Prop :=
  ∀ s : State, s.opOffset + 40 ≤ s.bufBytes →
    ∃ t, exec .segBuild s = .next t ∧
      ipSrc t.buf s.opOffset = some s.srcAddr ∧ ipDst t.buf s.opOffset = some s.dstAddr ∧
      ipIdent t.buf s.opOffset = some s.ipid ∧ ipTotlen t.buf s.opOffset = some 40 ∧
      ipVersion t.buf s.opOffset = some 4 ∧ ipIhl t.buf s.opOffset = some 5 ∧ ipTos t.buf s.opOffset = some 0 ∧
      ipFragword t.buf s.opOffset = some 0 ∧ ipTtl t.buf s.opOffset = some 64 ∧ ipProto t.buf s.opOffset = some 6 ∧
      tcpSport t.buf (s.opOffset + 20) = some s.opSport ∧ tcpDport t.buf (s.opOffset + 20) = some s.opDport ∧
      tcpSeq t.buf (s.opOffset + 20) = some s.seq ∧ tcpAck t.buf (s.opOffset + 20) = some s.acknum ∧
      tcpSyn t.buf (s.opOffset + 20) = some s.opSyn ∧ tcpAckf t.buf (s.opOffset + 20) = some s.opAck ∧
      tcpWin t.buf (s.opOffset + 20) = some s.opWindow ∧ tcpDoff t.buf (s.opOffset + 20) = some 5 ∧
      tcpUrg t.buf (s.opOffset + 20) = some 0

/-! ### All commands -/

/-- 60_exceptions.md R170, R171, R172, 30_encoding.md R65: when a command raises each error, RANGE before LENGTH_OVF; the error
sets STATUS and changes nothing else, unwritten bytes in the span or not; and only then does a command
fail. -/
def Obligations.CommandErrorsExactly : Prop :=
  (∀ (s : State) (c : Instr), isCommand c = true →
      (s.bufBytes < s.opOffset + spanBytes s c → exec c s = .next { s with status := 0x00000022 }) ∧
        (s.opOffset + spanBytes s c ≤ s.bufBytes → c = .ipBuild → 0xFFFF < 20 + s.opLength →
          exec c s = .next { s with status := 0x00000032 }) ∧
        (s.opOffset + spanBytes s c ≤ s.bufBytes → (c = .ipBuild → 20 + s.opLength ≤ 0xFFFF) →
          ∀ t, exec c s = .next t → t.status = 0x00000001)) ∧
    ∀ (s : State) (d : Word), d.toNat = 0 ∨ 6 ≤ d.toNat →
      decode s.bufBytes (Tx.regWrite .cmd d) = .ok (.regWr .cmd d) ∧
        exec (.regWr .cmd d) s = .next { s with status := 0x00000012 }

/-- 10_state.md R23: every command writes STATUS in full, with one of its values; DONE and ERR are never
both set, and ECODE is 0 without ERR. -/
def Obligations.EveryCommandWritesStatusInFull : Prop :=
  ∀ (s t : State) (c : Instr), isCommand c = true → exec c s = .next t →
    (t.status = 0x00000001 ∧ doneOf t.status = true ∧ errOf t.status = false ∧ ecodeOf t.status = 0) ∨
      (t.status = 0x00000022 ∧ doneOf t.status = false ∧ errOf t.status = true ∧ ecodeOf t.status = 2 ∧
        t.result = s.result) ∨
      (c = .ipBuild ∧ t.status = 0x00000032 ∧ doneOf t.status = false ∧ errOf t.status = true ∧
        ecodeOf t.status = 3 ∧ t.result = s.result)

/-- 20_memory.md R42, 44_host_access.md R154: the frame of the five commands: a command changes RESULT, STATUS
and the bytes from OFFSET on that it stores, and nothing else; one that raises an error changes no byte. -/
def Obligations.CommandFrame : Prop :=
  ∀ (s t : State) (c : Instr), isCommand c = true → exec c s = .next t →
    SameParams s t ∧
      (∀ a, a < s.opOffset ∨ s.opOffset + bytesStored c ≤ a → Memory.read t.buf a = Memory.read s.buf a) ∧
      (t.status ≠ 0x00000001 → t.buf = s.buf ∧ t.result = s.result)

/-- 20_memory.md R42, R47: a command's outcome depends on no byte of the buffer outside the span it
reads. -/
def Obligations.CommandReadsOnlyItsSpan : Prop :=
  ∀ (s t : State) (m : Memory) (c : Instr), isCommand c = true →
    (readsSpan c = true → ∀ a, s.opOffset ≤ a → a < s.opOffset + s.opLength → Memory.read m a = Memory.read s.buf a) →
    exec c s = .next t →
      ∃ u, exec c { s with buf := m } = .next u ∧ u.result = t.result ∧ u.status = t.status ∧
        ∀ a, s.opOffset ≤ a → a < s.opOffset + bytesStored c → t.status = 0x00000001 →
          Memory.read u.buf a = Memory.read t.buf a

/-- 10_state.md R23: no command reads STATUS, so none depends on how an earlier one ended; and RESULT is not
read either. -/
def Obligations.NoCommandReadsStatusOrResult : Prop :=
  ∀ (s : State) (c : Instr) (v w : Word), isCommand c = true →
    exec c { s with status := v } = exec c s ∧
      ∀ t, exec c s = .next t →
        exec c { s with result := w } = .next { t with result := if t.status = 0x00000001 then t.result else w }

/-- 30_encoding.md R63: a command reads no register it does not list. -/
def Obligations.CommandsReadOnlyListedOperands : Prop :=
  ∀ (s : State) (len : Half) (src dst prt sq ack ctl : Word) (idn : Half),
    exec .csum { s with srcAddr := src, dstAddr := dst, ports := prt, seq := sq, acknum := ack, tcpctl := ctl, ipid := idn } =
        mapNext (fun t => { t with srcAddr := src, dstAddr := dst, ports := prt, seq := sq, acknum := ack, tcpctl := ctl, ipid := idn })
          (exec .csum s) ∧
      exec .ipBuild { s with ports := prt, seq := sq, acknum := ack, tcpctl := ctl } =
        mapNext (fun t => { t with ports := prt, seq := sq, acknum := ack, tcpctl := ctl }) (exec .ipBuild s) ∧
      exec .tcpBuild { s with length := len, ipid := idn } =
        mapNext (fun t => { t with length := len, ipid := idn }) (exec .tcpBuild s) ∧
      exec .tcpCsum { s with ports := prt, seq := sq, acknum := ack, tcpctl := ctl, ipid := idn } =
        mapNext (fun t => { t with ports := prt, seq := sq, acknum := ack, tcpctl := ctl, ipid := idn }) (exec .tcpCsum s) ∧
      exec .segBuild { s with length := len } = mapNext (fun t => { t with length := len }) (exec .segBuild s)

/-- 20_memory.md R47: every command is idempotent. -/
def Obligations.CommandsAreIdempotent : Prop :=
  ∀ (s t : State) (c : Instr), isCommand c = true → exec c s = .next t → exec c t = .next t

/-! ### The whole machine -/

/-- 60_exceptions.md R175 (log entries 4 and 6): a step faults exactly when its transaction does not decode
(BusError) or reads an unwritten byte (UnwrittenByte), and nothing is ever refused. -/
def Obligations.StepFaultsExactly : Prop :=
  ∀ s : State,
    (step s = .fault .busError ↔ ∃ t rest, s.input = .tx t :: rest ∧ badTx s.bufBytes t = true) ∧
      (step s = .fault .unwrittenByte ↔
        ∃ t rest i, s.input = .tx t :: rest ∧ decode s.bufBytes t = .ok i ∧
          ((∃ k, i = .bufRd k ∧ Memory.read s.buf k.toNat = none) ∨
            (readsSpan i = true ∧ s.opOffset + s.opLength ≤ s.bufBytes ∧
              ∃ k, k < s.opLength ∧ Memory.read s.buf (s.opOffset + k) = none))) ∧
      ∀ r, step s ≠ .refused r

/-- The invariant of the state (00_scope.md R7, 10_state.md R23, R32, 20_memory.md R40) is kept by every
step. -/
def Obligations.EveryStepKeepsTheStateLegal : Prop :=
  ∀ s t : State, s.Inv → step s = .next t → t.Inv

/-- The state right after reset is legal, for every allowed buffer size. -/
def Obligations.ResetStateIsLegal : Prop :=
  State.reset.Inv ∧ ∀ n, Config.minBufBytes ≤ n → n ≤ Config.maxBufBytes → (State.resetOf n).Inv

/-- Who changes what, over all transactions (10_state.md R23, R24, R30 to R33, 44_host_access.md R154): STATUS
and RESULT change only by a write to CMD, a parameter register only by a write of that register, a buffer
byte only by BUF_WR of it or by a write to CMD. -/
def Obligations.OnlyTheseTransactionsChangeState : Prop :=
  ∀ (s t : State) (x : Tx) (rest : List Input), s.input = .tx x :: rest → step s = .next t →
    (t.status ≠ s.status ∨ t.result ≠ s.result → x.dir = .write ∧ x.size = .word ∧ x.addr = Reg.cmd.addr) ∧
      (∀ r, writeMask r ≠ none → regValue t r ≠ regValue s r → x.dir = .write ∧ x.size = .word ∧ x.addr = r.addr) ∧
      (∀ a, Memory.read t.buf a ≠ Memory.read s.buf a →
        x.dir = .write ∧ (x.addr = Reg.cmd.addr ∨ x.addr.toNat = 0x8000 + a)) ∧
      (x.dir = .read → t = { s with input := rest, reads := t.reads })

/-! ### Host scripts -/

/-- 30_encoding.md R66: the headers and the data of the five forms of a script line. -/
def Obligations.ScriptLinesHaveTheirHeaders : Prop :=
  (∀ (r : Reg) (v : Word),
      ∃ t, (ScriptLine.wr r v).expand = some [t] ∧ t.header = 0x60000#19 ||| r.addr.setWidth 19 ∧ t.data = v) ∧
    (∀ r : Reg, ∃ t, (ScriptLine.rd r).expand = some [t] ∧ t.header = 0x20000#19 ||| r.addr.setWidth 19) ∧
    (∀ (a : Addr) (v : Word),
      ∃ t, (ScriptLine.wrAt a v).expand = some [t] ∧ t.header = 0x60000#19 ||| a.setWidth 19 ∧ t.data = v) ∧
    (∀ a : Addr, ∃ t, (ScriptLine.rdAt a).expand = some [t] ∧ t.header = 0x20000#19 ||| a.setWidth 19) ∧
    (∀ (o : BufIndex) (b : Byte),
      ∃ t, (ScriptLine.wb o b).expand = some [t] ∧ t.header = 0x48000#19 + o.setWidth 19 ∧ t.data = b.setWidth 32) ∧
    (∀ o : BufIndex, ∃ t, (ScriptLine.rb o).expand = some [t] ∧ t.header = 0x08000#19 + o.setWidth 19) ∧
    ∀ c : Command,
      ∃ t, (ScriptLine.cmd c).expand = some [t] ∧ t.header = 0x60000#19 ∧ decodeCmd t.data = .ok c.instr

/-- 30_encoding.md R67: a host that runs the line `segbuild o` gets SEG_BUILD at `o`, and the lines `ports` and
`tcpctl` load the fields they name; operands out of range are refused. -/
def Obligations.PseudoInstructionsRun : Prop :=
  (∀ (s : State) (o : Word),
      ∃ ts, (ScriptLine.segbuild o).expand = some ts ∧
        Host.Core.run Sys2Proof.core 2 (s.withProgram ts) =
          exec .segBuild { s with input := [], offset := o.setWidth 16 }) ∧
    (∀ (s : State) (sp dp : Nat), sp ≤ 0xFFFF → dp ≤ 0xFFFF →
      ∃ ts t, (ScriptLine.ports sp dp).expand = some ts ∧ step (s.withProgram ts) = .next t ∧
        t.opSport.toNat = sp ∧ t.opDport.toNat = dp) ∧
    (∀ (s : State) (syn ack win : Nat), syn ≤ 1 → ack ≤ 1 → win ≤ 0xFFFF →
      ∃ ts t, (ScriptLine.tcpctl syn ack win).expand = some ts ∧ step (s.withProgram ts) = .next t ∧
        t.opSyn.toNat = syn ∧ t.opAck.toNat = ack ∧ t.opWindow.toNat = win) ∧
    (∀ sp dp, 0xFFFF < sp ∨ 0xFFFF < dp → (ScriptLine.ports sp dp).expand = none) ∧
    ∀ syn ack win, 1 < syn ∨ 1 < ack ∨ 0xFFFF < win → (ScriptLine.tcpctl syn ack win).expand = none
end

