-- ==== Sys2Proof/Laws/Decode.lean ====
section
/-! SUPPORT. The decoder's and the encoder's parts: field codes and their inverses, the header's fields,
what each row of the table says about them, and what command words decode to. -/

namespace Sys2Proof

@[simp] theorem Reg.ofIndex_index (r : Reg) : Reg.ofIndex r.index = r := by
  cases r with
  | reserved k => revert k; decide
  | _ => rfl

@[simp] theorem Reg.index_ofIndex (x : BitVec 4) : (Reg.ofIndex x).index = x := by
  revert x; decide

@[simp] theorem Size.ofCode_code (z : Size) : Size.ofCode z.code = z := by cases z <;> rfl

@[simp] theorem Size.code_ofCode (c : BitVec 2) : (Size.ofCode c).code = c := by revert c; decide

@[simp] theorem Dir.ofBit_bit (d : Dir) : Dir.ofBit d.bit = d := by cases d <;> rfl

@[simp] theorem Dir.bit_ofBit (b : BitVec 1) : (Dir.ofBit b).bit = b := by revert b; decide

/-- The header as a number: direction, size, address. -/
theorem Tx.header_toNat (t : Tx) :
    t.header.toNat = t.dir.bit.toNat * 2 ^ 18 + t.size.code.toNat * 2 ^ 16 + t.addr.toNat := by
  have h1 := t.addr.isLt
  have h2 := t.size.code.isLt
  simp only [Tx.header, BitVec.toNat_append]
  rw [← Nat.shiftLeft_add_eq_or_of_lt h1, ← Nat.shiftLeft_add_eq_or_of_lt h2]
  simp only [Nat.shiftLeft_eq]
  omega

/-- A transaction is its header and its data. -/
theorem Tx.ext_header {t u : Tx} (h : t.header = u.header) (hd : t.data = u.data) : t = u := by
  have h0 : t.header.toNat = u.header.toNat := by rw [h]
  rw [Tx.header_toNat, Tx.header_toNat] at h0
  have a1 := t.addr.isLt; have a2 := u.addr.isLt
  have s1 := t.size.code.isLt; have s2 := u.size.code.isLt
  have b1 := t.dir.bit.isLt; have b2 := u.dir.bit.isLt
  have ea : t.addr = u.addr := BitVec.eq_of_toNat_eq (by omega)
  have es : t.size.code = u.size.code := BitVec.eq_of_toNat_eq (by omega)
  have eb : t.dir.bit = u.dir.bit := BitVec.eq_of_toNat_eq (by omega)
  have es' : t.size = u.size := by rw [← Size.ofCode_code t.size, es, Size.ofCode_code]
  have eb' : t.dir = u.dir := by rw [← Dir.ofBit_bit t.dir, eb, Dir.ofBit_bit]
  cases t; cases u; simp_all

/-- Transactions with one header have one direction, size and address. -/
theorem Tx.fields_of_header {t u : Tx} (h : t.header = u.header) :
    t.dir = u.dir ∧ t.size = u.size ∧ t.addr = u.addr := by
  have := Tx.ext_header (t := { t with data := 0 }) (u := { u with data := 0 }) h rfl
  simpa using this

/-- The address bits of a header. -/
theorem Tx.header_addr (t : Tx) : t.header.extractLsb' 0 16 = t.addr := by
  apply BitVec.eq_of_toNat_eq
  have h1 := t.addr.isLt
  simp only [BitVec.extractLsb'_toNat, Tx.header_toNat, Nat.shiftRight_zero]
  omega

/-- Two concatenations are equal exactly when their parts are. -/
theorem append_eq_append_iff {v w : Nat} {x x' : BitVec v} {y y' : BitVec w} :
    x ++ y = x' ++ y' ↔ x = x' ∧ y = y' := by
  constructor
  · intro h
    have h' : (x ++ y).toNat = (x' ++ y').toNat := by rw [h]
    simp only [BitVec.toNat_append] at h'
    rw [← Nat.shiftLeft_add_eq_or_of_lt y.isLt, ← Nat.shiftLeft_add_eq_or_of_lt y'.isLt] at h'
    simp only [Nat.shiftLeft_eq] at h'
    have hy := y.isLt
    have hy' := y'.isLt
    have e1 : x.toNat = x'.toNat := by
      have a := congrArg (· / 2 ^ w) h'
      simpa [Nat.add_comm, Nat.add_mul_div_right, Nat.div_eq_of_lt hy, Nat.div_eq_of_lt hy', Nat.two_pow_pos] using a
    rw [e1] at h'
    exact ⟨BitVec.eq_of_toNat_eq e1, BitVec.eq_of_toNat_eq (by omega)⟩
  · rintro ⟨rfl, rfl⟩
    rfl

/-- The address bits a register row looks at: `addr[15:6]` and `addr[1:0]` (30_encoding.md R61). -/
theorem regWindow_mask (a : Addr) :
    a &&& 0xFFC3#16 = 0#16 ↔ a.extractLsb' 6 10 = 0#10 ∧ a.extractLsb' 0 2 = 0#2 := by
  constructor
  · intro h
    have hb : ∀ k, (a &&& 0xFFC3#16).getLsbD k = false := by
      intro k
      rw [h]
      simp
    constructor
    · apply BitVec.eq_of_getLsbD_eq
      intro i hi
      have := hb (6 + i)
      interval_cases i <;> simpa using this
    · apply BitVec.eq_of_getLsbD_eq
      intro i hi
      have := hb i
      interval_cases i <;> simpa using this
  · rintro ⟨h6, h2⟩
    have e6 : ∀ k, k < 10 → a.getLsbD (6 + k) = false := by
      intro k hk
      have := congrArg (fun v : BitVec 10 => v.getLsbD k) h6
      simpa [hk] using this
    have e2 : ∀ k, k < 2 → a.getLsbD k = false := by
      intro k hk
      have := congrArg (fun v : BitVec 2 => v.getLsbD k) h2
      simpa [hk] using this
    apply BitVec.eq_of_getLsbD_eq
    intro i hi
    by_cases h1 : i < 2
    · simp [e2 i h1]
    · by_cases h3 : i < 6
      · interval_cases i <;> first | omega | simp
      · have := e6 (i - 6) (by omega)
        rw [show 6 + (i - 6) = i by omega] at this
        simp [this]

/-- The address bit a buffer row looks at (30_encoding.md R61). -/
theorem bufWindow_mask (a : Addr) : a &&& 0x8000#16 = 0x8000#16 ↔ a.getLsbD 15 = true := by
  constructor
  · intro h
    have := congrArg (fun v : BitVec 16 => v.getLsbD 15) h
    simpa using this
  · intro h
    apply BitVec.eq_of_getLsbD_eq
    intro i hi
    interval_cases i <;> simp_all

/-- A masked header, field by field. -/
theorem Tx.header_and (t : Tx) (e : BitVec 1) (c : BitVec 2) (a : Addr) :
    (t.header &&& (e ++ c ++ a) : BitVec 19) = (t.dir.bit &&& e) ++ (t.size.code &&& c) ++ (t.addr &&& a) := by
  change ((t.dir.bit ++ t.size.code ++ t.addr) &&& (e ++ c ++ a)) = _
  rw [BitVec.and_append, BitVec.and_append]

theorem Dir.bit_inj {d e : Dir} : d.bit = e.bit ↔ d = e := by cases d <;> cases e <;> decide

theorem Size.code_inj {x y : Size} : x.code = y.code ↔ x = y := by cases x <;> cases y <;> decide

/-- A register row: the direction's bit, a 32-bit access, and an aligned address below 0x40. -/
theorem Tx.hits_reg (t : Tx) (d : Dir) (p : BitVec 19) (hp : p = d.bit ++ Size.word.code ++ 0#16) :
    (t.header &&& 0x7FFC3#19 == p) =
      decide (t.dir = d ∧ t.size = .word ∧ t.addr.extractLsb' 6 10 = 0#10 ∧ t.addr.extractLsb' 0 2 = 0#2) := by
  have h := t.header_and 1#1 3#2 0xFFC3#16
  have h1 : t.dir.bit &&& 1#1 = t.dir.bit := by cases t.dir <;> rfl
  have h2 : t.size.code &&& 3#2 = t.size.code := by cases t.size <;> rfl
  rw [h1, h2] at h
  change t.header &&& 0x7FFC3#19 = _ at h
  rw [h, hp, beq_eq_decide]
  refine decide_eq_decide.mpr ?_
  rw [append_eq_append_iff, append_eq_append_iff, Dir.bit_inj, Size.code_inj, regWindow_mask, and_assoc]

/-- A buffer row: the direction's bit, an 8-bit access, and `addr[15]` set. -/
theorem Tx.hits_buf (t : Tx) (d : Dir) (p : BitVec 19) (hp : p = d.bit ++ Size.byte.code ++ 0x8000#16) :
    (t.header &&& 0x78000#19 == p) = decide (t.dir = d ∧ t.size = .byte ∧ t.addr.getLsbD 15 = true) := by
  have h := t.header_and 1#1 3#2 0x8000#16
  have h1 : t.dir.bit &&& 1#1 = t.dir.bit := by cases t.dir <;> rfl
  have h2 : t.size.code &&& 3#2 = t.size.code := by cases t.size <;> rfl
  rw [h1, h2] at h
  change t.header &&& 0x78000#19 = _ at h
  rw [h, hp, beq_eq_decide]
  refine decide_eq_decide.mpr ?_
  rw [append_eq_append_iff, append_eq_append_iff, Dir.bit_inj, Size.code_inj, bufWindow_mask, and_assoc]

/-- What each row of the table says about a transaction. -/
theorem TxRow.hits_iff (t : Tx) :
    (TxRow.hits ⟨.regRd, 0x20000#19, 0x7FFC3#19⟩ t.header =
      decide (t.dir = .read ∧ t.size = .word ∧ t.addr.extractLsb' 6 10 = 0#10 ∧ t.addr.extractLsb' 0 2 = 0#2)) ∧
    (TxRow.hits ⟨.regWr, 0x60000#19, 0x7FFC3#19⟩ t.header =
      decide (t.dir = .write ∧ t.size = .word ∧ t.addr.extractLsb' 6 10 = 0#10 ∧ t.addr.extractLsb' 0 2 = 0#2)) ∧
    (TxRow.hits ⟨.bufRd, 0x08000#19, 0x78000#19⟩ t.header =
      decide (t.dir = .read ∧ t.size = .byte ∧ t.addr.getLsbD 15 = true)) ∧
    (TxRow.hits ⟨.bufWr, 0x48000#19, 0x78000#19⟩ t.header =
      decide (t.dir = .write ∧ t.size = .byte ∧ t.addr.getLsbD 15 = true)) :=
  ⟨t.hits_reg .read _ rfl, t.hits_reg .write _ rfl, t.hits_buf .read _ rfl, t.hits_buf .write _ rfl⟩

/-- The kind of a transaction, by its fields. -/
theorem txKind_eq (t : Tx) :
    txKind t.header =
      if t.size = .word ∧ t.addr.extractLsb' 6 10 = 0#10 ∧ t.addr.extractLsb' 0 2 = 0#2 then
        some (match t.dir with | .read => .regRd | .write => .regWr)
      else if t.size = .byte ∧ t.addr.getLsbD 15 = true then
        some (match t.dir with | .read => .bufRd | .write => .bufWr)
      else none := by
  obtain ⟨h1, h2, h3, h4⟩ := TxRow.hits_iff t
  unfold txKind txRows
  simp only [List.find?, h1, h2, h3, h4]
  by_cases hs : t.size = .word ∧ t.addr.extractLsb' 6 10 = 0#10 ∧ t.addr.extractLsb' 0 2 = 0#2
  · cases t.dir <;> simp [hs]
  · by_cases hb : t.size = .byte ∧ t.addr.getLsbD 15 = true
    · cases t.dir <;> simp [hb.1, hb.2]
    · cases t.dir <;> simp only [hs, hb, and_false, decide_false, if_false, Option.map_none, reduceCtorEq]

/-- The buffer index of an address of the buffer window (30_encoding.md R61, `addr - 0x8000`). -/
theorem bufIndexOfAddr_eq (a : Addr) (h : a.getLsbD 15 = true) :
    0x8000 ≤ a.toNat ∧ (bufIndexOfAddr a).toNat = a.toNat - 0x8000 ∧
      bufIndexOfAddr a = BitVec.ofNat 15 (a.toNat - 0x8000) := by
  have ha := a.isLt
  have h15 : 0x8000 ≤ a.toNat := by
    rw [BitVec.getLsbD, Nat.testBit_eq_decide_div_mod_eq] at h
    simp at h
    omega
  have e : (bufIndexOfAddr a).toNat = a.toNat - 0x8000 := by
    simp [bufIndexOfAddr]
    omega
  refine ⟨h15, e, BitVec.eq_of_toNat_eq ?_⟩
  rw [e, BitVec.toNat_ofNat]
  omega

/-- A header is the header of the transaction it makes. -/
@[simp] theorem Tx.header_ofHeader (h : BitVec 19) (d : Word) : (Tx.ofHeader h d).header = h := by
  apply BitVec.eq_of_toNat_eq
  have hl := h.isLt
  rw [Tx.header_toNat]
  simp only [Tx.ofHeader, Dir.bit_ofBit, Size.code_ofCode, BitVec.extractLsb'_toNat, Nat.shiftRight_eq_div_pow]
  omega

/-- What a command word decodes to, by its value. -/
theorem decodeCmd_eq (w : Word) :
    decodeCmd w =
      if w.toNat = 1 then .ok .csum else if w.toNat = 2 then .ok .ipBuild else if w.toNat = 3 then .ok .tcpBuild
      else if w.toNat = 4 then .ok .tcpCsum else if w.toNat = 5 then .ok .segBuild else .error .illegalCommand := by
  unfold decodeCmd
  have hw := w.isLt
  by_cases h : w.extractLsb' 8 24 = 0#24
  · have h1 : w.toNat < 256 := by
      have := congrArg BitVec.toNat h
      simp only [BitVec.extractLsb'_toNat, Nat.shiftRight_eq_div_pow] at this
      simp at this
      omega
    have h2 : (w.extractLsb' 0 8).toNat = w.toNat := by
      simp
      omega
    rw [if_pos h, h2]
    generalize w.toNat = k
    split <;> simp_all
  · have h1 : 256 ≤ w.toNat := by
      by_contra hc
      refine h (BitVec.eq_of_toNat_eq ?_)
      simp [Nat.shiftRight_eq_div_pow]
      omega
    rw [if_neg h]
    simp (disch := omega) only [if_neg]

/-- `legalCommandWord` says what `decodeCmd` accepts. -/
theorem legalCommandWord_iff (w : Word) : legalCommandWord w = true ↔ 1 ≤ w.toNat ∧ w.toNat ≤ 5 := by
  have e : ∀ k : Nat, k < 2 ^ 32 → (w = BitVec.ofNat 32 k ↔ w.toNat = k) := by
    intro k hk
    constructor
    · rintro rfl
      simp
      omega
    · rintro rfl
      simp
  simp only [legalCommandWord, Bool.or_eq_true, beq_iff_eq]
  rw [e 1 (by omega), e 2 (by omega), e 3 (by omega), e 4 (by omega), e 5 (by omega)]
  omega

end Sys2Proof
end

