-- ==== Sys2Proof/Laws/Memory.lean ====
section
/-! SUPPORT. The data buffer: a read after a write, the canonical form and the bounds under every memory
operation, and the same for spans of bytes. -/

namespace Sys2Proof.Machine

/-! ### One byte -/

@[simp] theorem Memory.read_nil (a : Nat) : Memory.read [] a = none := rfl

/-- A read after a write: the byte written at its offset, every other byte as before. -/
theorem Memory.read_write (m : Memory) (a b : Nat) (v : Byte) :
    Memory.read (Memory.write m a v) b = if b = a then some v else Memory.read m b := by
  induction m with
  | nil => simp [Memory.write, Memory.read]
  | cons c rest ih =>
    obtain ⟨k, w⟩ := c
    by_cases h1 : a < k
    · simp [Memory.write, h1, Memory.read]
    · by_cases h2 : a = k
      · subst h2
        by_cases h3 : b = a <;> simp [Memory.write, Memory.read, h3]
      · by_cases h3 : b = k
        · subst h3
          have : ¬ b = a := fun e => h2 e.symm
          simp [Memory.write, h1, h2, Memory.read, this]
        · simp [Memory.write, h1, h2, Memory.read, h3, ih]

@[simp] theorem Memory.read_write_same (m : Memory) (a : Nat) (v : Byte) :
    Memory.read (Memory.write m a v) a = some v := by
  simp [Memory.read_write]

theorem Memory.read_write_other (m : Memory) {a b : Nat} (v : Byte) (h : b ≠ a) :
    Memory.read (Memory.write m a v) b = Memory.read m b := by
  simp [Memory.read_write, h]

/-- Writing a byte twice is writing it once. -/
theorem Memory.write_write_same (m : Memory) (a : Nat) (v w : Byte) :
    Memory.write (Memory.write m a v) a w = Memory.write m a w := by
  induction m with
  | nil => simp [Memory.write]
  | cons c rest ih =>
    obtain ⟨k, x⟩ := c
    by_cases h1 : a < k
    · simp [Memory.write, h1]
    · by_cases h2 : a = k
      · simp [Memory.write, h2]
      · simp [Memory.write, h1, h2, ih]

/-- Writes of two different bytes may change places. -/
theorem Memory.write_comm (m : Memory) {a b : Nat} (v w : Byte) (h : a ≠ b) :
    Memory.write (Memory.write m a v) b w = Memory.write (Memory.write m b w) a v := by
  induction m with
  | nil => rcases Nat.lt_or_gt_of_ne h with h1 | h1 <;> simp (disch := omega) only [Memory.write, if_pos, if_neg]
  | cons c rest ih =>
    obtain ⟨k, x⟩ := c
    rcases Nat.lt_trichotomy a k with ha | ha | ha <;> rcases Nat.lt_trichotomy b k with hb | hb | hb <;>
      rcases Nat.lt_or_gt_of_ne h with hab | hab <;>
      first
        | omega
        | simp (disch := omega) only [Memory.write, if_pos, if_neg, ih]

/-! ### The canonical form -/

theorem Memory.risingFrom_mono {lo lo' : Nat} {m : Memory} (h : lo' ≤ lo)
    (hm : Memory.risingFrom lo m = true) : Memory.risingFrom lo' m = true := by
  cases m with
  | nil => rfl
  | cons c rest =>
    simp only [Memory.risingFrom, Bool.and_eq_true, decide_eq_true_eq] at hm ⊢
    exact ⟨le_trans h hm.1, hm.2⟩

theorem Memory.risingFrom_write {m : Memory} {lo a : Nat} (v : Byte) (h : lo ≤ a)
    (hm : Memory.risingFrom lo m = true) : Memory.risingFrom lo (Memory.write m a v) = true := by
  induction m generalizing lo with
  | nil => simp [Memory.write, Memory.risingFrom, h]
  | cons c rest ih =>
    obtain ⟨k, x⟩ := c
    simp only [Memory.risingFrom, Bool.and_eq_true, decide_eq_true_eq] at hm
    by_cases h1 : a < k
    · simp only [Memory.write, h1, if_true, Memory.risingFrom, Bool.and_eq_true, decide_eq_true_eq]
      exact ⟨h, h1, hm.2⟩
    · by_cases h2 : a = k
      · subst h2
        simpa [Memory.write, Memory.risingFrom, h] using hm.2
      · simp only [Memory.write, h1, h2, if_false, Memory.risingFrom, Bool.and_eq_true, decide_eq_true_eq]
        exact ⟨hm.1, ih (by omega) hm.2⟩

theorem Memory.wf_nil : Memory.wf [] = true := rfl

/-- A write keeps the canonical form. -/
theorem Memory.wf_write {m : Memory} (a : Nat) (v : Byte) (h : Memory.wf m = true) :
    Memory.wf (Memory.write m a v) = true :=
  Memory.risingFrom_write v (Nat.zero_le a) h

theorem Memory.inside_write {m : Memory} {n a : Nat} (v : Byte) (h : a < n)
    (hm : Memory.inside n m = true) : Memory.inside n (Memory.write m a v) = true := by
  induction m with
  | nil => simp [Memory.write, Memory.inside, h]
  | cons c rest ih =>
    obtain ⟨k, x⟩ := c
    have hm' : k < n ∧ Memory.inside n rest = true := by
      simpa [Memory.inside, List.all_cons] using hm
    have hc : ∀ l : Memory, ∀ j y, Memory.inside n ((j, y) :: l) = (decide (j < n) && Memory.inside n l) := by
      intro l j y; simp [Memory.inside, List.all_cons]
    by_cases h1 : a < k
    · simp [Memory.write, h1, hc, h, hm'.1, hm'.2]
    · by_cases h2 : a = k
      · simp [Memory.write, h2, hc, hm'.1, hm'.2]
      · simp [Memory.write, h1, h2, hc, hm'.1, ih hm'.2]

/-- An offset outside the buffer has no byte. -/
theorem Memory.read_of_inside {m : Memory} {n a : Nat} (hm : Memory.inside n m = true) (h : n ≤ a) :
    Memory.read m a = none := by
  induction m with
  | nil => rfl
  | cons c rest ih =>
    obtain ⟨k, x⟩ := c
    have hm' : k < n ∧ Memory.inside n rest = true := by
      simpa [Memory.inside, List.all_cons] using hm
    have hk : ¬ a = k := by omega
    simp [Memory.read, hk, ih hm'.2]

/-! ### Spans -/

/-- A span read answers exactly when every byte of it is written, with the bytes in order. -/
theorem Memory.readSpan_eq_some {m : Memory} {o n : Nat} {bs : List Byte} :
    Memory.readSpan m o n = some bs ↔
      bs.length = n ∧ ∀ k, k < n → Memory.read m (o + k) = bs[k]? := by
  induction n generalizing o bs with
  | zero =>
    simp only [Memory.readSpan, Option.some.injEq, Nat.not_lt_zero, false_implies, implies_true, and_true]
    exact ⟨fun h => by rw [← h]; rfl, fun h => (List.length_eq_zero_iff.mp h).symm⟩
  | succ n ih =>
    constructor
    · intro h
      simp only [Memory.readSpan] at h
      split at h
      · rename_i b cs hb hcs
        cases h
        obtain ⟨hl, hk⟩ := ih.mp hcs
        refine ⟨by simp [hl], fun k hk' => ?_⟩
        cases k with
        | zero => simpa using hb
        | succ k =>
          have := hk k (by omega)
          simpa [Nat.add_assoc, Nat.add_comm 1] using this
      · cases h
    · rintro ⟨hl, hk⟩
      cases bs with
      | nil => simp at hl
      | cons b cs =>
        have h0 : Memory.read m o = some b := by simpa using hk 0 (by omega)
        have hs : Memory.readSpan m (o + 1) n = some cs := by
          refine ih.mpr ⟨by simpa using hl, fun k hk' => ?_⟩
          have := hk (k + 1) (by omega)
          simpa [Nat.add_assoc, Nat.add_comm 1] using this
        simp [Memory.readSpan, h0, hs]

/-- A span read has no answer exactly when a byte of it is unwritten. -/
theorem Memory.readSpan_eq_none {m : Memory} {o n : Nat} :
    Memory.readSpan m o n = none ↔ ∃ k, k < n ∧ Memory.read m (o + k) = none := by
  induction n generalizing o with
  | zero => simp [Memory.readSpan]
  | succ n ih =>
    constructor
    · intro h
      cases hb : Memory.read m o with
      | none => exact ⟨0, by omega, by simpa using hb⟩
      | some b =>
        cases hs : Memory.readSpan m (o + 1) n with
        | none =>
          obtain ⟨k, hk, hr⟩ := ih.mp hs
          exact ⟨k + 1, by omega, by simpa [Nat.add_assoc, Nat.add_comm 1] using hr⟩
        | some bs => simp [Memory.readSpan, hb, hs] at h
    · rintro ⟨k, hk, hr⟩
      cases k with
      | zero =>
        have : Memory.read m o = none := by simpa using hr
        simp [Memory.readSpan, this]
      | succ k =>
        have hs : Memory.readSpan m (o + 1) n = none :=
          ih.mpr ⟨k, by omega, by simpa [Nat.add_assoc, Nat.add_comm 1] using hr⟩
        cases hb : Memory.read m o <;> simp [Memory.readSpan, hb, hs]

/-- A byte after a span write: inside the span the byte written there, outside it as before. -/
theorem Memory.read_writeSpan (m : Memory) (o a : Nat) (bs : List Byte) :
    Memory.read (Memory.writeSpan m o bs) a =
      if o ≤ a ∧ a < o + bs.length then bs[a - o]? else Memory.read m a := by
  induction bs generalizing m o with
  | nil =>
    have : ¬ (o ≤ a ∧ a < o + ([] : List Byte).length) := by simp
    rw [if_neg this, Memory.writeSpan]
  | cons b bs ih =>
    rw [Memory.writeSpan, ih, Memory.read_write]
    by_cases h : a = o
    · subst h; simp
    · by_cases h1 : o + 1 ≤ a ∧ a < o + 1 + bs.length
      · have h2 : o ≤ a ∧ a < o + (b :: bs).length := by simp; omega
        have h3 : a - o = (a - (o + 1)) + 1 := by omega
        rw [if_pos h1, if_pos h2, h3, List.getElem?_cons_succ]
      · have h2 : ¬ (o ≤ a ∧ a < o + (b :: bs).length) := by simp; omega
        rw [if_neg h1, if_neg h2, if_neg h]

theorem Memory.read_writeSpan_outside (m : Memory) {o a : Nat} {bs : List Byte}
    (h : a < o ∨ o + bs.length ≤ a) : Memory.read (Memory.writeSpan m o bs) a = Memory.read m a := by
  rw [Memory.read_writeSpan, if_neg (by omega)]

/-- The span just written reads back. -/
theorem Memory.readSpan_writeSpan (m : Memory) (o : Nat) (bs : List Byte) :
    Memory.readSpan (Memory.writeSpan m o bs) o bs.length = some bs := by
  refine Memory.readSpan_eq_some.mpr ⟨rfl, fun k hk => ?_⟩
  rw [Memory.read_writeSpan, if_pos (by omega)]
  simp

/-- A span that a write does not touch reads as before. -/
theorem Memory.readSpan_congr {m m' : Memory} {o n : Nat}
    (h : ∀ k, k < n → Memory.read m' (o + k) = Memory.read m (o + k)) :
    Memory.readSpan m' o n = Memory.readSpan m o n := by
  induction n generalizing o with
  | zero => rfl
  | succ n ih =>
    have h0 : Memory.read m' o = Memory.read m o := by simpa using h 0 (by omega)
    have hs : Memory.readSpan m' (o + 1) n = Memory.readSpan m (o + 1) n :=
      ih fun k hk => by simpa [Nat.add_assoc, Nat.add_comm 1] using h (k + 1) (by omega)
    simp [Memory.readSpan, h0, hs]

theorem Memory.wf_writeSpan {m : Memory} (o : Nat) (bs : List Byte) (h : Memory.wf m = true) :
    Memory.wf (Memory.writeSpan m o bs) = true := by
  induction bs generalizing m o with
  | nil => exact h
  | cons b bs ih => exact ih (o + 1) (Memory.wf_write o b h)

theorem Memory.inside_writeSpan {m : Memory} {n o : Nat} {bs : List Byte} (h : o + bs.length ≤ n)
    (hm : Memory.inside n m = true) : Memory.inside n (Memory.writeSpan m o bs) = true := by
  induction bs generalizing m o with
  | nil => exact hm
  | cons b bs ih =>
    simp only [List.length_cons] at h
    exact ih (by omega) (Memory.inside_write b (by omega) hm)

/-- A write before a span write may come after it, outside the span. -/
theorem Memory.writeSpan_write_comm (m : Memory) {a o : Nat} (v : Byte) (bs : List Byte) (h : a < o) :
    Memory.writeSpan (Memory.write m a v) o bs = Memory.write (Memory.writeSpan m o bs) a v := by
  induction bs generalizing m o with
  | nil => rfl
  | cons b bs ih =>
    rw [Memory.writeSpan, Memory.write_comm m v b (by omega), ih _ (by omega)]
    rfl

/-- Writing a span twice is writing it once. -/
theorem Memory.writeSpan_idem (m : Memory) (o : Nat) (bs : List Byte) :
    Memory.writeSpan (Memory.writeSpan m o bs) o bs = Memory.writeSpan m o bs := by
  induction bs generalizing m o with
  | nil => rfl
  | cons b bs ih =>
    simp only [Memory.writeSpan]
    rw [← Memory.writeSpan_write_comm _ _ _ (Nat.lt_succ_self o), Memory.write_write_same, ih]

/-- Writing two spans one after the other is writing their concatenation. -/
theorem Memory.writeSpan_append (m : Memory) (o : Nat) (bs cs : List Byte) :
    Memory.writeSpan (Memory.writeSpan m o bs) (o + bs.length) cs = Memory.writeSpan m o (bs ++ cs) := by
  induction bs generalizing m o with
  | nil => simp [Memory.writeSpan]
  | cons b bs ih =>
    simp only [Memory.writeSpan, List.cons_append, List.length_cons]
    rw [← ih, Nat.add_assoc, Nat.add_comm 1]

end Sys2Proof.Machine
end

