-- ==== Sys2Proof/Laws/State.lean ====
section
/-! SUPPORT. What each named update of the state does to each field, so that no proof unfolds a record
update. -/

namespace Sys2Proof.Machine

/-! ### withStatus -/

@[simp] theorem State.withStatus_offset (s : State) (v : Word) : (s.withStatus v).offset = s.offset := rfl
@[simp] theorem State.withStatus_length (s : State) (v : Word) : (s.withStatus v).length = s.length := rfl
@[simp] theorem State.withStatus_srcAddr (s : State) (v : Word) : (s.withStatus v).srcAddr = s.srcAddr := rfl
@[simp] theorem State.withStatus_dstAddr (s : State) (v : Word) : (s.withStatus v).dstAddr = s.dstAddr := rfl
@[simp] theorem State.withStatus_ports (s : State) (v : Word) : (s.withStatus v).ports = s.ports := rfl
@[simp] theorem State.withStatus_seq (s : State) (v : Word) : (s.withStatus v).seq = s.seq := rfl
@[simp] theorem State.withStatus_acknum (s : State) (v : Word) : (s.withStatus v).acknum = s.acknum := rfl
@[simp] theorem State.withStatus_tcpctl (s : State) (v : Word) : (s.withStatus v).tcpctl = s.tcpctl := rfl
@[simp] theorem State.withStatus_ipid (s : State) (v : Word) : (s.withStatus v).ipid = s.ipid := rfl
@[simp] theorem State.withStatus_status (s : State) (v : Word) : (s.withStatus v).status = v := rfl
@[simp] theorem State.withStatus_result (s : State) (v : Word) : (s.withStatus v).result = s.result := rfl
@[simp] theorem State.withStatus_buf (s : State) (v : Word) : (s.withStatus v).buf = s.buf := rfl
@[simp] theorem State.withStatus_bufBytes (s : State) (v : Word) : (s.withStatus v).bufBytes = s.bufBytes := rfl
@[simp] theorem State.withStatus_input (s : State) (v : Word) : (s.withStatus v).input = s.input := rfl
@[simp] theorem State.withStatus_reads (s : State) (v : Word) : (s.withStatus v).reads = s.reads := rfl

/-! ### withResult -/

@[simp] theorem State.withResult_offset (s : State) (v : Word) : (s.withResult v).offset = s.offset := rfl
@[simp] theorem State.withResult_length (s : State) (v : Word) : (s.withResult v).length = s.length := rfl
@[simp] theorem State.withResult_srcAddr (s : State) (v : Word) : (s.withResult v).srcAddr = s.srcAddr := rfl
@[simp] theorem State.withResult_dstAddr (s : State) (v : Word) : (s.withResult v).dstAddr = s.dstAddr := rfl
@[simp] theorem State.withResult_ports (s : State) (v : Word) : (s.withResult v).ports = s.ports := rfl
@[simp] theorem State.withResult_seq (s : State) (v : Word) : (s.withResult v).seq = s.seq := rfl
@[simp] theorem State.withResult_acknum (s : State) (v : Word) : (s.withResult v).acknum = s.acknum := rfl
@[simp] theorem State.withResult_tcpctl (s : State) (v : Word) : (s.withResult v).tcpctl = s.tcpctl := rfl
@[simp] theorem State.withResult_ipid (s : State) (v : Word) : (s.withResult v).ipid = s.ipid := rfl
@[simp] theorem State.withResult_status (s : State) (v : Word) : (s.withResult v).status = s.status := rfl
@[simp] theorem State.withResult_result (s : State) (v : Word) : (s.withResult v).result = v := rfl
@[simp] theorem State.withResult_buf (s : State) (v : Word) : (s.withResult v).buf = s.buf := rfl
@[simp] theorem State.withResult_bufBytes (s : State) (v : Word) : (s.withResult v).bufBytes = s.bufBytes := rfl
@[simp] theorem State.withResult_input (s : State) (v : Word) : (s.withResult v).input = s.input := rfl
@[simp] theorem State.withResult_reads (s : State) (v : Word) : (s.withResult v).reads = s.reads := rfl

/-! ### withBuf -/

@[simp] theorem State.withBuf_offset (s : State) (m : Memory) : (s.withBuf m).offset = s.offset := rfl
@[simp] theorem State.withBuf_length (s : State) (m : Memory) : (s.withBuf m).length = s.length := rfl
@[simp] theorem State.withBuf_srcAddr (s : State) (m : Memory) : (s.withBuf m).srcAddr = s.srcAddr := rfl
@[simp] theorem State.withBuf_dstAddr (s : State) (m : Memory) : (s.withBuf m).dstAddr = s.dstAddr := rfl
@[simp] theorem State.withBuf_ports (s : State) (m : Memory) : (s.withBuf m).ports = s.ports := rfl
@[simp] theorem State.withBuf_seq (s : State) (m : Memory) : (s.withBuf m).seq = s.seq := rfl
@[simp] theorem State.withBuf_acknum (s : State) (m : Memory) : (s.withBuf m).acknum = s.acknum := rfl
@[simp] theorem State.withBuf_tcpctl (s : State) (m : Memory) : (s.withBuf m).tcpctl = s.tcpctl := rfl
@[simp] theorem State.withBuf_ipid (s : State) (m : Memory) : (s.withBuf m).ipid = s.ipid := rfl
@[simp] theorem State.withBuf_status (s : State) (m : Memory) : (s.withBuf m).status = s.status := rfl
@[simp] theorem State.withBuf_result (s : State) (m : Memory) : (s.withBuf m).result = s.result := rfl
@[simp] theorem State.withBuf_buf (s : State) (m : Memory) : (s.withBuf m).buf = m := rfl
@[simp] theorem State.withBuf_bufBytes (s : State) (m : Memory) : (s.withBuf m).bufBytes = s.bufBytes := rfl
@[simp] theorem State.withBuf_input (s : State) (m : Memory) : (s.withBuf m).input = s.input := rfl
@[simp] theorem State.withBuf_reads (s : State) (m : Memory) : (s.withBuf m).reads = s.reads := rfl

/-! ### withInput -/

@[simp] theorem State.withInput_offset (s : State) (l : List Input) : (s.withInput l).offset = s.offset := rfl
@[simp] theorem State.withInput_length (s : State) (l : List Input) : (s.withInput l).length = s.length := rfl
@[simp] theorem State.withInput_srcAddr (s : State) (l : List Input) : (s.withInput l).srcAddr = s.srcAddr := rfl
@[simp] theorem State.withInput_dstAddr (s : State) (l : List Input) : (s.withInput l).dstAddr = s.dstAddr := rfl
@[simp] theorem State.withInput_ports (s : State) (l : List Input) : (s.withInput l).ports = s.ports := rfl
@[simp] theorem State.withInput_seq (s : State) (l : List Input) : (s.withInput l).seq = s.seq := rfl
@[simp] theorem State.withInput_acknum (s : State) (l : List Input) : (s.withInput l).acknum = s.acknum := rfl
@[simp] theorem State.withInput_tcpctl (s : State) (l : List Input) : (s.withInput l).tcpctl = s.tcpctl := rfl
@[simp] theorem State.withInput_ipid (s : State) (l : List Input) : (s.withInput l).ipid = s.ipid := rfl
@[simp] theorem State.withInput_status (s : State) (l : List Input) : (s.withInput l).status = s.status := rfl
@[simp] theorem State.withInput_result (s : State) (l : List Input) : (s.withInput l).result = s.result := rfl
@[simp] theorem State.withInput_buf (s : State) (l : List Input) : (s.withInput l).buf = s.buf := rfl
@[simp] theorem State.withInput_bufBytes (s : State) (l : List Input) : (s.withInput l).bufBytes = s.bufBytes := rfl
@[simp] theorem State.withInput_input (s : State) (l : List Input) : (s.withInput l).input = l := rfl
@[simp] theorem State.withInput_reads (s : State) (l : List Input) : (s.withInput l).reads = s.reads := rfl

/-! ### logRead -/

@[simp] theorem State.logRead_offset (s : State) (v : Word) : (s.logRead v).offset = s.offset := rfl
@[simp] theorem State.logRead_length (s : State) (v : Word) : (s.logRead v).length = s.length := rfl
@[simp] theorem State.logRead_srcAddr (s : State) (v : Word) : (s.logRead v).srcAddr = s.srcAddr := rfl
@[simp] theorem State.logRead_dstAddr (s : State) (v : Word) : (s.logRead v).dstAddr = s.dstAddr := rfl
@[simp] theorem State.logRead_ports (s : State) (v : Word) : (s.logRead v).ports = s.ports := rfl
@[simp] theorem State.logRead_seq (s : State) (v : Word) : (s.logRead v).seq = s.seq := rfl
@[simp] theorem State.logRead_acknum (s : State) (v : Word) : (s.logRead v).acknum = s.acknum := rfl
@[simp] theorem State.logRead_tcpctl (s : State) (v : Word) : (s.logRead v).tcpctl = s.tcpctl := rfl
@[simp] theorem State.logRead_ipid (s : State) (v : Word) : (s.logRead v).ipid = s.ipid := rfl
@[simp] theorem State.logRead_status (s : State) (v : Word) : (s.logRead v).status = s.status := rfl
@[simp] theorem State.logRead_result (s : State) (v : Word) : (s.logRead v).result = s.result := rfl
@[simp] theorem State.logRead_buf (s : State) (v : Word) : (s.logRead v).buf = s.buf := rfl
@[simp] theorem State.logRead_bufBytes (s : State) (v : Word) : (s.logRead v).bufBytes = s.bufBytes := rfl
@[simp] theorem State.logRead_input (s : State) (v : Word) : (s.logRead v).input = s.input := rfl
@[simp] theorem State.logRead_reads (s : State) (v : Word) : (s.logRead v).reads = s.reads ++ [v] := rfl

/-! ### applyReset -/

@[simp] theorem applyReset_offset (s : State) : (applyReset s).offset = 0 := rfl
@[simp] theorem applyReset_length (s : State) : (applyReset s).length = 0 := rfl
@[simp] theorem applyReset_srcAddr (s : State) : (applyReset s).srcAddr = 0 := rfl
@[simp] theorem applyReset_dstAddr (s : State) : (applyReset s).dstAddr = 0 := rfl
@[simp] theorem applyReset_ports (s : State) : (applyReset s).ports = 0 := rfl
@[simp] theorem applyReset_seq (s : State) : (applyReset s).seq = 0 := rfl
@[simp] theorem applyReset_acknum (s : State) : (applyReset s).acknum = 0 := rfl
@[simp] theorem applyReset_tcpctl (s : State) : (applyReset s).tcpctl = 0 := rfl
@[simp] theorem applyReset_ipid (s : State) : (applyReset s).ipid = 0 := rfl
@[simp] theorem applyReset_status (s : State) : (applyReset s).status = 0 := rfl
@[simp] theorem applyReset_result (s : State) : (applyReset s).result = 0 := rfl
@[simp] theorem applyReset_buf (s : State) : (applyReset s).buf = [] := rfl
@[simp] theorem applyReset_bufBytes (s : State) : (applyReset s).bufBytes = s.bufBytes := rfl
@[simp] theorem applyReset_input (s : State) : (applyReset s).input = s.input := rfl
@[simp] theorem applyReset_reads (s : State) : (applyReset s).reads = s.reads := rfl

/-! ### writeReg: the fields no host write of a register reaches -/

@[simp] theorem State.writeReg_status (s : State) (r : Reg) (d : Word) : (s.writeReg r d).status = s.status := by
  cases r <;> rfl
@[simp] theorem State.writeReg_result (s : State) (r : Reg) (d : Word) : (s.writeReg r d).result = s.result := by
  cases r <;> rfl
@[simp] theorem State.writeReg_buf (s : State) (r : Reg) (d : Word) : (s.writeReg r d).buf = s.buf := by
  cases r <;> rfl
@[simp] theorem State.writeReg_bufBytes (s : State) (r : Reg) (d : Word) : (s.writeReg r d).bufBytes = s.bufBytes := by
  cases r <;> rfl
@[simp] theorem State.writeReg_input (s : State) (r : Reg) (d : Word) : (s.writeReg r d).input = s.input := by
  cases r <;> rfl
@[simp] theorem State.writeReg_reads (s : State) (r : Reg) (d : Word) : (s.writeReg r d).reads = s.reads := by
  cases r <;> rfl

/-! ### The operands after an update that touches no parameter register -/

@[simp] theorem State.withStatus_opOffset (s : State) (v : Word) : (s.withStatus v).opOffset = s.opOffset := rfl
@[simp] theorem State.withStatus_opLength (s : State) (v : Word) : (s.withStatus v).opLength = s.opLength := rfl
@[simp] theorem State.withStatus_opTcp (s : State) (v : Word) : (s.withStatus v).opTcp = s.opTcp := rfl
@[simp] theorem State.withResult_opOffset (s : State) (v : Word) : (s.withResult v).opOffset = s.opOffset := rfl
@[simp] theorem State.withResult_opLength (s : State) (v : Word) : (s.withResult v).opLength = s.opLength := rfl
@[simp] theorem State.withResult_opTcp (s : State) (v : Word) : (s.withResult v).opTcp = s.opTcp := rfl
@[simp] theorem State.withBuf_opOffset (s : State) (m : Memory) : (s.withBuf m).opOffset = s.opOffset := rfl
@[simp] theorem State.withBuf_opLength (s : State) (m : Memory) : (s.withBuf m).opLength = s.opLength := rfl
@[simp] theorem State.withBuf_opTcp (s : State) (m : Memory) : (s.withBuf m).opTcp = s.opTcp := rfl
@[simp] theorem State.withInput_opOffset (s : State) (l : List Input) : (s.withInput l).opOffset = s.opOffset := rfl
@[simp] theorem State.withInput_opLength (s : State) (l : List Input) : (s.withInput l).opLength = s.opLength := rfl
@[simp] theorem State.withInput_opTcp (s : State) (l : List Input) : (s.withInput l).opTcp = s.opTcp := rfl
@[simp] theorem State.logRead_opOffset (s : State) (v : Word) : (s.logRead v).opOffset = s.opOffset := rfl
@[simp] theorem State.logRead_opLength (s : State) (v : Word) : (s.logRead v).opLength = s.opLength := rfl
@[simp] theorem State.logRead_opTcp (s : State) (v : Word) : (s.logRead v).opTcp = s.opTcp := rfl

end Sys2Proof.Machine
end

