-- ==== Sys2Proof/Laws/Ops.lean ====
section
/-! SUPPORT. What each shared operation and each meaning can answer, said once: cite these and leave the
definitions folded. -/

namespace Sys2Proof.Machine

/-! ### Shared operations -/

theorem raiseError_eq (e : CmdError) (s : State) : raiseError e s = .next (s.withStatus (statusError e)) := rfl

theorem complete_eq (r : Word) (s : State) : complete r s = .next ((s.withResult r).withStatus statusDone) := rfl

@[simp] theorem State.spanFits_iff (s : State) (o n : Nat) : s.spanFits o n = true ↔ o + n ≤ s.bufBytes := by
  simp [State.spanFits]

theorem statusError_illegalCmd : statusError .illegalCmd = 0x00000012#32 := rfl
theorem statusError_range : statusError .range = 0x00000022#32 := rfl
theorem statusError_lengthOvf : statusError .lengthOvf = 0x00000032#32 := rfl
theorem statusDone_eq : statusDone = 0x00000001#32 := rfl

/-! ### The meanings, case by case -/

theorem execCsum_range {s : State} (h : s.bufBytes < s.opOffset + s.opLength) :
    execCsum s = .next (s.withStatus (statusError .range)) := by
  rw [execCsum, if_neg (by simpa using h), raiseError_eq]

theorem execCsum_done {s : State} {bytes : List Byte} (h : s.opOffset + s.opLength ≤ s.bufBytes)
    (hb : Memory.readSpan s.buf s.opOffset s.opLength = some bytes) :
    execCsum s = .next ((s.withResult ((icsum bytes).setWidth 32)).withStatus statusDone) := by
  rw [execCsum, if_pos (by simpa using h), hb]
  rfl

theorem execCsum_unwritten {s : State} (h : s.opOffset + s.opLength ≤ s.bufBytes)
    (hb : Memory.readSpan s.buf s.opOffset s.opLength = none) : execCsum s = .fault .unwrittenByte := by
  rw [execCsum, if_pos (by simpa using h), hb]

theorem execTcpCsum_range {s : State} (h : s.bufBytes < s.opOffset + s.opLength) :
    execTcpCsum s = .next (s.withStatus (statusError .range)) := by
  rw [execTcpCsum, if_neg (by simpa using h), raiseError_eq]

theorem execTcpCsum_done {s : State} {bytes : List Byte} (h : s.opOffset + s.opLength ≤ s.bufBytes)
    (hb : Memory.readSpan s.buf s.opOffset s.opLength = some bytes) :
    execTcpCsum s =
      .next ((s.withResult ((segmentChecksum s.srcAddr s.dstAddr s.length bytes).setWidth 32)).withStatus statusDone) := by
  rw [execTcpCsum, if_pos (by simpa using h), hb]
  rfl

theorem execTcpCsum_unwritten {s : State} (h : s.opOffset + s.opLength ≤ s.bufBytes)
    (hb : Memory.readSpan s.buf s.opOffset s.opLength = none) : execTcpCsum s = .fault .unwrittenByte := by
  rw [execTcpCsum, if_pos (by simpa using h), hb]

/-- The IPv4 header IP_BUILD writes. -/
abbrev State.builtIpHeader (s : State) : List Byte :=
  ipHeader (BitVec.ofNat 16 (20 + s.opLength)) s.ipid s.srcAddr s.dstAddr

/-- The TCP header TCP_BUILD and SEG_BUILD write. -/
abbrev State.builtTcpHeader (s : State) : List Byte := tcpHeader s.srcAddr s.dstAddr s.opTcp

theorem execIpBuild_range {s : State} (h : s.bufBytes < s.opOffset + 20) :
    execIpBuild s = .next (s.withStatus (statusError .range)) := by
  rw [execIpBuild, if_neg (by simpa using h), raiseError_eq]

theorem execIpBuild_lengthOvf {s : State} (h : s.opOffset + 20 ≤ s.bufBytes) (hn : 0xFFFF < 20 + s.opLength) :
    execIpBuild s = .next (s.withStatus (statusError .lengthOvf)) := by
  rw [execIpBuild, if_pos (by simpa using h), if_neg (by omega), raiseError_eq]

theorem execIpBuild_done {s : State} (h : s.opOffset + 20 ≤ s.bufBytes) (hn : 20 + s.opLength ≤ 0xFFFF) :
    execIpBuild s =
      .next (((s.withBuf (Memory.writeSpan s.buf s.opOffset s.builtIpHeader)).withResult
        ((ipChecksum (BitVec.ofNat 16 (20 + s.opLength)) s.ipid s.srcAddr s.dstAddr).setWidth 32)).withStatus statusDone) := by
  rw [execIpBuild, if_pos (by simpa using h), if_pos hn, complete_eq]

theorem execTcpBuild_range {s : State} (h : s.bufBytes < s.opOffset + 20) :
    execTcpBuild s = .next (s.withStatus (statusError .range)) := by
  rw [execTcpBuild, if_neg (by simpa using h), raiseError_eq]

theorem execTcpBuild_done {s : State} (h : s.opOffset + 20 ≤ s.bufBytes) :
    execTcpBuild s =
      .next (((s.withBuf (Memory.writeSpan s.buf s.opOffset s.builtTcpHeader)).withResult
        ((tcpChecksum s.srcAddr s.dstAddr s.opTcp).setWidth 32)).withStatus statusDone) := by
  rw [execTcpBuild, if_pos (by simpa using h), complete_eq]

theorem execSegBuild_range {s : State} (h : s.bufBytes < s.opOffset + 40) :
    execSegBuild s = .next (s.withStatus (statusError .range)) := by
  rw [execSegBuild, if_neg (by simpa using h), raiseError_eq]

theorem execSegBuild_done {s : State} (h : s.opOffset + 40 ≤ s.bufBytes) :
    execSegBuild s =
      .next (((s.withBuf (Memory.writeSpan (Memory.writeSpan s.buf s.opOffset
          (ipHeader segTotalLength s.ipid s.srcAddr s.dstAddr)) (s.opOffset + 20) s.builtTcpHeader)).withResult
        (ipChecksum segTotalLength s.ipid s.srcAddr s.dstAddr ++ tcpChecksum s.srcAddr s.dstAddr s.opTcp)).withStatus
          statusDone) := by
  rw [execSegBuild, if_pos (by simpa using h), complete_eq]

@[simp] theorem ipHeader_length (tl ident : Half) (src dst : Word) : (ipHeader tl ident src dst).length = 20 := by
  simp [ipHeader, putBe16, ipHeaderZeroed, be16, be32]

@[simp] theorem tcpHeader_length (src dst : Word) (f : TcpFields) : (tcpHeader src dst f).length = 20 := by
  simp [tcpHeader, putBe16, tcpHeaderZeroed, be16, be32]

/-- The bytes a command stores from OFFSET on when it completes. -/
def storedBytes (s : State) : Instr → List Byte
  | .ipBuild => s.builtIpHeader
  | .tcpBuild => s.builtTcpHeader
  | .segBuild => ipHeader segTotalLength s.ipid s.srcAddr s.dstAddr ++ s.builtTcpHeader
  | .csum | .tcpCsum | .regRd _ | .regWr _ _ | .bufRd _ | .bufWr _ _ => []

theorem storedBytes_length (s : State) (c : Instr) : (storedBytes s c).length = bytesStored c := by
  cases c <;> simp [storedBytes, bytesStored]

/-- Everything a command can answer with a next state: one of two errors, or completion with its bytes
stored, a RESULT and DONE. -/
theorem command_next {c : Instr} {s t : State} (hc : isCommand c = true) (h : exec c s = .next t) :
    (s.bufBytes < s.opOffset + spanBytes s c ∧ t = s.withStatus (statusError .range)) ∨
      (c = .ipBuild ∧ s.opOffset + spanBytes s c ≤ s.bufBytes ∧ 0xFFFF < 20 + s.opLength ∧
        t = s.withStatus (statusError .lengthOvf)) ∨
      (s.opOffset + spanBytes s c ≤ s.bufBytes ∧
        ∃ r, t = ((s.withBuf (Memory.writeSpan s.buf s.opOffset (storedBytes s c))).withResult r).withStatus statusDone) := by
  by_cases hf : s.opOffset + spanBytes s c ≤ s.bufBytes
  · cases c with
    | csum =>
      cases hb : Memory.readSpan s.buf s.opOffset s.opLength with
      | none => rw [exec, execCsum_unwritten hf hb] at h; cases h
      | some bytes =>
        rw [exec, execCsum_done hf hb] at h
        cases h
        exact .inr (.inr ⟨hf, _, rfl⟩)
    | tcpCsum =>
      cases hb : Memory.readSpan s.buf s.opOffset s.opLength with
      | none => rw [exec, execTcpCsum_unwritten hf hb] at h; cases h
      | some bytes =>
        rw [exec, execTcpCsum_done hf hb] at h
        cases h
        exact .inr (.inr ⟨hf, _, rfl⟩)
    | ipBuild =>
      by_cases hn : 20 + s.opLength ≤ 0xFFFF
      · rw [exec, execIpBuild_done hf hn] at h
        cases h
        exact .inr (.inr ⟨hf, _, rfl⟩)
      · rw [exec, execIpBuild_lengthOvf hf (by omega)] at h
        cases h
        exact .inr (.inl ⟨rfl, hf, by omega, rfl⟩)
    | tcpBuild =>
      rw [exec, execTcpBuild_done hf] at h
      cases h
      exact .inr (.inr ⟨hf, _, rfl⟩)
    | segBuild =>
      rw [exec, execSegBuild_done hf] at h
      cases h
      refine .inr (.inr ⟨hf, ipChecksum segTotalLength s.ipid s.srcAddr s.dstAddr
        ++ tcpChecksum s.srcAddr s.dstAddr s.opTcp, ?_⟩)
      have := Memory.writeSpan_append s.buf s.opOffset (ipHeader segTotalLength s.ipid s.srcAddr s.dstAddr) s.builtTcpHeader
      rw [ipHeader_length] at this
      rw [storedBytes, ← this]
    | regRd r => cases hc
    | regWr r d => cases hc
    | bufRd i => cases hc
    | bufWr i d => cases hc
  · have hf' : s.bufBytes < s.opOffset + spanBytes s c := by omega
    refine .inl ⟨hf', ?_⟩
    cases c with
    | csum => rw [exec, execCsum_range hf'] at h; cases h; rfl
    | tcpCsum => rw [exec, execTcpCsum_range hf'] at h; cases h; rfl
    | ipBuild => rw [exec, execIpBuild_range hf'] at h; cases h; rfl
    | tcpBuild => rw [exec, execTcpBuild_range hf'] at h; cases h; rfl
    | segBuild => rw [exec, execSegBuild_range hf'] at h; cases h; rfl
    | regRd r => cases hc
    | regWr r d => cases hc
    | bufRd i => cases hc
    | bufWr i d => cases hc

/-! ### The step -/

/-- Everything a step can be. -/
theorem step_cases (s : State) :
    (s.input = [] ∧ step s = .next s) ∨
      (∃ rest, s.input = .reset :: rest ∧ step s = .next (applyReset (s.withInput rest))) ∨
      (∃ t rest e, s.input = .tx t :: rest ∧ decode s.bufBytes t = .error e ∧ step s = .fault .busError) ∨
      ∃ t rest i, s.input = .tx t :: rest ∧ decode s.bufBytes t = .ok i ∧ step s = exec i (s.withInput rest) := by
  cases h : s.input with
  | nil => exact .inl ⟨rfl, by simp [step, fetch, h]⟩
  | cons x rest =>
    cases x with
    | reset => exact .inr (.inl ⟨rest, rfl, by simp [step, fetch, h]⟩)
    | tx t =>
      cases hd : decode s.bufBytes t with
      | error e => exact .inr (.inr (.inl ⟨t, rest, e, rfl, hd, by simp [step, fetch, h, hd]⟩))
      | ok i => exact .inr (.inr (.inr ⟨t, rest, i, rfl, hd, by simp [step, fetch, h, hd]⟩))

end Sys2Proof.Machine
end

