-- ==== Sys2Proof/Laws/PerInstr.lean ====
section
/-! SUPPORT. One statement about each instruction as syntax, made for every constructor: the row of the
transaction table that its encoding matches (30_encoding.md R61), and for a command the one command word
that stands for it (R64). -/

namespace Sys2Proof.Laws.EncodingRow

/-- The row of R61 that carries an instruction. -/
def rowOf : Instr → TxKind
  | .csum | .ipBuild | .tcpBuild | .tcpCsum | .segBuild => .regWr
  | .regRd _ => .regRd
  | .regWr _ _ => .regWr
  | .bufRd _ => .bufRd
  | .bufWr _ _ => .bufWr

/-- The command word of a command (R64). -/
def commandWord : Instr → Option Word
  | .csum => some 0x00000001
  | .ipBuild => some 0x00000002
  | .tcpBuild => some 0x00000003
  | .tcpCsum => some 0x00000004
  | .segBuild => some 0x00000005
  | .regRd _ | .regWr _ _ | .bufRd _ | .bufWr _ _ => none

/-- The encoding's header is of the instruction's own kind, and a command's word is the data of a write to
CMD that decodes to the command. -/
def Statement (i : Instr) : Prop :=
  txKind (encode i).header = some (rowOf i) ∧
    ∀ w, commandWord i = some w → encode i = Tx.regWrite .cmd w ∧ decodeCmd w = .ok i

/-- A register access, read or written, has the header of its row. -/
theorem txKind_reg (d : Dir) (r : Reg) (v : Word) :
    txKind (Tx.header { dir := d, size := .word, addr := r.addr, data := v }) =
      some (match d with | .read => .regRd | .write => .regWr) := by
  have h : r.addr.extractLsb' 6 10 = 0#10 ∧ r.addr.extractLsb' 0 2 = 0#2 := by
    cases r with
    | reserved k => revert k; decide
    | _ => exact ⟨by decide, by decide⟩
  cases d <;> rw [txKind_eq, if_pos ⟨rfl, h⟩]

/-- A buffer access, read or written, has the header of its row. -/
theorem txKind_buf (d : Dir) (i : BufIndex) (v : Word) :
    txKind (Tx.header { dir := d, size := .byte, addr := 1#1 ++ i, data := v }) =
      some (match d with | .read => .bufRd | .write => .bufWr) := by
  have h : (1#1 ++ i : Addr).getLsbD 15 = true := by
    show (1#1 ++ i).getLsbD 15 = true
    rw [BitVec.getLsbD_append, if_neg (by omega)]
    decide
  cases d <;> rw [txKind_eq, if_neg (fun c => by cases c.1), if_pos ⟨rfl, h⟩]

theorem csum : Statement .csum :=
  ⟨txKind_reg .write .cmd _, fun w h => by cases h; exact ⟨rfl, by decide⟩⟩

theorem ipBuild : Statement .ipBuild :=
  ⟨txKind_reg .write .cmd _, fun w h => by cases h; exact ⟨rfl, by decide⟩⟩

theorem tcpBuild : Statement .tcpBuild :=
  ⟨txKind_reg .write .cmd _, fun w h => by cases h; exact ⟨rfl, by decide⟩⟩

theorem tcpCsum : Statement .tcpCsum :=
  ⟨txKind_reg .write .cmd _, fun w h => by cases h; exact ⟨rfl, by decide⟩⟩

theorem segBuild : Statement .segBuild :=
  ⟨txKind_reg .write .cmd _, fun w h => by cases h; exact ⟨rfl, by decide⟩⟩

theorem regRd (r : Reg) : Statement (.regRd r) := ⟨txKind_reg .read r 0, fun w h => by cases h⟩

theorem regWr (r : Reg) (d : Word) : Statement (.regWr r d) := ⟨txKind_reg .write r d, fun w h => by cases h⟩

theorem bufRd (i : BufIndex) : Statement (.bufRd i) := ⟨txKind_buf .read i 0, fun w h => by cases h⟩

theorem bufWr (i : BufIndex) (d : Word) : Statement (.bufWr i d) := ⟨txKind_buf .write i d, fun w h => by cases h⟩

end Sys2Proof.Laws.EncodingRow
end

