-- ==== Sys2Proof/Tests/Slice0.lean ====
section
/-! SUPPORT. The model's own tests, each expected value from spec/ (95_test_vectors.md, or a word written out
from 30_encoding.md), and for every obligation with hypotheses a witness that meets them. -/

namespace Sys2Proof.Tests

open Sys2Proof.Machine

/-! ### Helpers -/

/-- The next state of an outcome, if it is one. -/
def nextOf : Host.Outcome State Fault Refusal → Option State
  | .next t => some t
  | .fault _ | .refused _ => none

/-- STATUS and RESULT of the next state of an outcome. -/
def outcome (o : Host.Outcome State Fault Refusal) : Option (Word × Word) :=
  (nextOf o).map fun t => (t.status, t.result)

theorem exists_next {o : Host.Outcome State Fault Refusal} (h : goesOn o = true) : ∃ t, o = .next t := by
  cases o with
  | next t => exact ⟨t, rfl⟩
  | fault f => cases h
  | refused r => cases h

/-- The SYN registers of 95_test_vectors.md, with a given OFFSET and LENGTH. -/
def syn (o n : Half) : State :=
  { State.reset with
    offset := o, length := n, srcAddr := 0x0A000001, dstAddr := 0x0A000002, ports := 0x9C400050,
    seq := 0x000003E8, acknum := 0x00000000, tcpctl := 0x00012000, ipid := 0x0001 }

/-- The ACK registers of 95_test_vectors.md, with a given OFFSET. -/
def ack (o : Half) : State :=
  { State.reset with
    offset := o, srcAddr := 0x0A000001, dstAddr := 0x0A000002, ports := 0x9C400050,
    seq := 0x000003E9, acknum := 0x00001389, tcpctl := 0x00022000, ipid := 0x0002 }

/-- A state with `bytes` written from `o` on. -/
def holding (s : State) (o : Nat) (bytes : List Byte) : State := s.withBuf (Memory.writeSpan s.buf o bytes)

/-- The span of V-CS-06. -/
def span8 : List Byte := [0x00, 0x01, 0xF2, 0x03, 0xF4, 0xF5, 0xF6, 0xF7]

/-- The SYN's TCP header of V-TB-01. -/
def synTcp : List Byte :=
  [0x9C, 0x40, 0x00, 0x50, 0x00, 0x00, 0x03, 0xE8, 0x00, 0x00, 0x00, 0x00, 0x50, 0x02, 0x20, 0x00, 0xDB, 0x67, 0x00, 0x00]

/-- V-CSUM-01's state. -/
def csum8 : State := holding { State.reset with offset := 1, length := 8 } 1 span8

/-- V-TC-05's state: the SYN's TCP header at 20 and one payload byte. -/
def tcp21 : State := holding (syn 20 21) 20 (synTcp ++ [0x41])

/-- A state with one pending transaction. -/
def pending (t : Tx) : State := { State.reset with input := [.tx t] }

/-! ### Well-formedness: an ill-formed instruction for each check -/

theorem test_wf_cmd_word : Instr.wf 2048 (.regWr .cmd 1) = false ∧ Instr.wf 2048 (.regWr .cmd 5) = false := by decide
theorem test_wf_buf_rd_index : Instr.wf 2048 (.bufRd 2048) = false := by decide
theorem test_wf_buf_wr_index : Instr.wf 2048 (.bufWr 2048 0) = false := by decide
theorem test_wf_accepts : Instr.wf 2048 (.bufRd 2047) = true ∧ Instr.wf 2048 (.regWr .cmd 0) = true := by decide

/-! ### Decoding: words written out bit by bit from 30_encoding.md R60 to R64 -/

/-- R64: RSVD[31:8] is zero, OP is 1 to 5. -/
theorem test_decode_csum : decodeTableWord 32 0b00000000_00000000_00000000_00000001 = some .csum := by decide
theorem test_decode_ip_build : decodeTableWord 32 0b00000000_00000000_00000000_00000010 = some .ipBuild := by decide
theorem test_decode_tcp_build : decodeTableWord 32 0b00000000_00000000_00000000_00000011 = some .tcpBuild := by decide
theorem test_decode_tcp_csum : decodeTableWord 32 0b00000000_00000000_00000000_00000100 = some .tcpCsum := by decide
theorem test_decode_seg_build : decodeTableWord 32 0b00000000_00000000_00000000_00000101 = some .segBuild := by decide
/-- dir 0, size 2, addr 0x0008: RESULT. -/
theorem test_decode_reg_rd : decodeTableWord 24 0b0_10_0000_0000_0000_1000 = some (.regRd .result) := by decide
/-- dir 1, size 2, addr 0x0028: TCPCTL. -/
theorem test_decode_reg_wr : decodeTableWord 24 0b1_10_0000_0000_0010_1000 = some (.regWr .tcpctl 0) := by decide
/-- dir 0, size 0, addr 0x8009: index 9. -/
theorem test_decode_buf_rd : decodeTableWord 24 0b0_00_1000_0000_0000_1001 = some (.bufRd 9) := by decide
/-- dir 1, size 0, addr 0x8421: index 0x421. -/
theorem test_decode_buf_wr : decodeTableWord 24 0b1_00_1000_0100_0010_0001 = some (.bufWr 0x421 0) := by decide
/-- V-CMD-01 to V-CMD-06: an illegal word stays a write of CMD. -/
theorem test_decode_illegal_words :
    ([0x00000000, 0x00000006, 0x000000FF, 0x00000101, 0x80000001, 0x00000105] : List Word).all
      (fun w => decodeTableWord 32 w.toNat = some (.regWr .cmd w)) = true := by decide
/-- V-HX-12 to V-HX-20: no header of these is an instruction. -/
theorem test_decode_bus_errors :
    ([0x20002, 0x20040, 0x00004, 0x68000, 0x08800, 0x18000, 0x30000, 0x27FFC, 0x4FFFF] : List Nat).all
      (fun h => decodeTableWord 24 h = none) = true := by decide

/-! ### The checksum function (95_test_vectors.md 2.1) -/

/-- V-CS-01, 04, 06, 07, 11, 12, 14 and 17. -/
theorem test_icsum :
    icsum [] = 0xFFFF ∧ icsum [0x01] = 0xFEFF ∧ icsum span8 = 0x220D ∧ icsum (span8.take 7) = 0x2304 ∧
      icsum [0x80, 0x00, 0x80, 0x00] = 0xFFFE ∧ icsum [0x12, 0x34, 0x56] = 0x97CB ∧
      icsum [0xFF, 0xFE, 0x00, 0x01] = 0x0000 ∧ icsum (span8 ++ [0x22, 0x0D]) = 0x0000 := by decide
/-- V-FO-04 to V-FO-08, by the closed form and by the 32-bit loop. -/
theorem test_fold :
    foldClosed 0x10000 = 0x0001 ∧ foldClosed 0x1FFFF = 0x0001 ∧ foldClosed 0x2DDF0 = 0xDDF2 ∧
      foldClosed 0xFFFFFFFF = 0xFFFF ∧ fold32 0x0001FFFF = 0x0001 ∧ fold32 0xFFFFFFFF = 0xFFFF := by decide
/-- V-LE-01 and V-LE-02. -/
theorem test_icsum_le : icsumLE [0x12, 0x34, 0x56] = 0xCB97 ∧ icsumLE span8 = 0x0D22 := by decide

/-! ### One step of each instruction -/

/-- V-CSUM-01. -/
theorem test_csum : outcome (exec .csum csum8) = some (0x00000001, 0x0000220D) := by decide
/-- V-CSUM-10: the sum 0x1FFFE does not wrap, RESULT is kept. -/
theorem test_csum_range :
    outcome (exec .csum { State.reset with offset := 0xFFFF, length := 0xFFFF, result := 0x1234 }) =
      some (0x00000022, 0x00001234) := by decide
/-- V-IP-01. -/
theorem test_ip_build :
    outcome (exec .ipBuild (syn 0 20)) = some (0x00000001, 0x000066CD) ∧
      (nextOf (exec .ipBuild (syn 0 20))).bind (fun t => Memory.readSpan t.buf 0 20) =
        some [0x45, 0x00, 0x00, 0x28, 0x00, 0x01, 0x00, 0x00, 0x40, 0x06, 0x66, 0xCD,
          0x0A, 0x00, 0x00, 0x01, 0x0A, 0x00, 0x00, 0x02] := by decide
/-- V-IP-04, V-IP-07 and V-IP-10: the largest length, one more, and RANGE before LENGTH_OVF. -/
theorem test_ip_build_limits :
    outcome (exec .ipBuild (syn 0 0xFFEB)) = some (0x00000001, 0x000066F5) ∧
      outcome (exec .ipBuild (syn 0 0xFFEC)) = some (0x00000032, 0x00000000) ∧
      outcome (exec .ipBuild (syn 2029 0xFFEC)) = some (0x00000022, 0x00000000) := by decide
/-- V-TB-03. -/
theorem test_tcp_build :
    outcome (exec .tcpBuild (ack 20)) = some (0x00000001, 0x0000C7CF) ∧
      (nextOf (exec .tcpBuild (ack 20))).bind (fun t => Memory.readSpan t.buf 20 20) =
        some [0x9C, 0x40, 0x00, 0x50, 0x00, 0x00, 0x03, 0xE9, 0x00, 0x00, 0x13, 0x89, 0x50, 0x10, 0x20, 0x00,
          0xC7, 0xCF, 0x00, 0x00] := by decide
/-- V-TB-09. -/
theorem test_tcp_build_range : outcome (exec .tcpBuild (syn 2029 0)) = some (0x00000022, 0x00000000) := by decide
/-- V-TC-05: an odd segment. -/
theorem test_tcp_csum : outcome (exec .tcpCsum tcp21) = some (0x00000001, 0x0000BEFE) := by decide
/-- V-TC-06: the pseudo-header alone, at the buffer's end. -/
theorem test_tcp_csum_empty : outcome (exec .tcpCsum (syn 2048 0)) = some (0x00000001, 0x0000EBF6) := by decide
/-- V-SB-06: the last offset that fits. -/
theorem test_seg_build :
    outcome (exec .segBuild (syn 2008 0)) = some (0x00000001, 0x66CDDB67) ∧
      (nextOf (exec .segBuild (syn 2008 0))).bind (fun t => Memory.readSpan t.buf 2028 20) = some synTcp := by decide
/-- V-SB-07. -/
theorem test_seg_build_range :
    outcome (exec .segBuild { syn 2009 0 with result := 0xCAFE }) = some (0x00000022, 0x0000CAFE) := by decide
/-- 44_host_access.md R150's example, and a reserved slot (V-HX-08). -/
theorem test_reg_rd :
    (nextOf (exec (.regRd .status) State.reset)).map (·.reads) = some [0x00000000] ∧
      (nextOf (exec (.regRd (.reserved 0)) State.reset)).map (·.reads) = some [0x00000000] := by decide
/-- V-HX-02 and V-HX-04: the write masks. -/
theorem test_reg_wr :
    (nextOf (exec (.regWr .offset 0x12345678) State.reset)).map (·.readReg .offset) = some 0x00005678 ∧
      (nextOf (exec (.regWr .tcpctl 0xFFFFFFFF) State.reset)).map (·.readReg .tcpctl) = some 0x0003FFFF := by decide
/-- V-CMD-04 and V-CMD-11, through a write of CMD. -/
theorem test_reg_wr_cmd :
    outcome (exec (.regWr .cmd 0x00000101) State.reset) = some (0x00000012, 0x00000000) ∧
      outcome (exec (.regWr .cmd 0x00000005) State.reset) = some (0x00000001, 0x7AD1AFE5) := by decide
/-- V-HX-10: `data[31:8]` is ignored, the read is zero-extended. -/
theorem test_buf_wr :
    (nextOf (exec (.bufWr 0 0x12345645) State.reset)).map (fun t => Memory.read t.buf 0) = some (some 0x45) := by decide
theorem test_buf_rd :
    (nextOf (exec (.bufRd 0) (holding State.reset 0 [0x45]))).map (·.reads) = some [0x00000045] := by decide
/-- V-HX-11. -/
theorem test_buf_rd_unwritten : exec (.bufRd 0) State.reset = .fault .unwrittenByte := rfl
/-- 95_test_vectors.md S4: the accessors on V-SB-01's datagram. -/
theorem test_accessors :
    (nextOf (exec .segBuild (syn 0 0))).map (fun t =>
      (ipIdent t.buf 0, ipTotlen t.buf 0, tcpSeq t.buf 20, tcpSyn t.buf 20, tcpAckf t.buf 20, tcpWin t.buf 20)) =
      some (some 0x0001, some 40, some 1000, some 1, some 0, some 0x2000) := by decide
/-- The transaction placed by withFetchWord is the one the step runs (P2 step 9). -/
theorem test_with_fetch_word :
    outcome (step ((syn 0 0).withFetchWord 32 5)) = some (0x00000001, 0x66CDDB67) ∧
      (nextOf (step (State.reset.withFetchWord 24 0x20004))).map (·.reads) = some [0x00000000] := by decide
/-- 30_encoding.md R67: `addrs`, `ports` and `wbs` as P1 and P2 expand them. -/
theorem test_script :
    (ScriptLine.addrs (dotted 10 0 0 1) (dotted 10 0 0 2)).expand =
        some [Tx.regWrite .srcAddr 0x0A000001, Tx.regWrite .dstAddr 0x0A000002] ∧
      (ScriptLine.ports 40000 80).expand = some [Tx.regWrite .ports 0x9C400050] ∧
      (ScriptLine.tcpctl 1 0 0x2000).expand = some [Tx.regWrite .tcpctl 0x00012000] ∧
      (ScriptLine.wbs 9 [0x22, 0x0D]).expand =
        some [⟨.write, .byte, 0x8009, 0x22⟩, ⟨.write, .byte, 0x800A, 0x0D⟩] := by decide

/-! ### Witnesses: concrete states and operands that meet each obligation's hypotheses -/

theorem witness_ResetInputClearsEverything : ({ syn 0 0 with input := [.reset] } : State).input = .reset :: [] := rfl

theorem witness_ResetInPlaceOfCommandIsResetAfterIt :
    isCommand .segBuild = true ∧ ∃ t, exec .segBuild (syn 2008 0) = .next t := ⟨rfl, exists_next (by decide)⟩

theorem witness_DecodeOfEncodeIsTheInstruction :
    Instr.wf 2048 (.bufRd 2047) = true ∧ Instr.wf 32768 (.bufWr 32767 0xFFFFFFFF) = true ∧
      Instr.wf 40 (.regWr .cmd 6) = true := by decide

theorem witness_EncodeOfDecodeIsTheTransaction :
    decode 2048 (Tx.bufWrite 2047 7) = .ok (.bufWr 2047 7) ∧ (Tx.bufWrite 2047 7).dir = .write ∧
      decode 2048 (Tx.regRead .ipid) = .ok (.regRd .ipid) := ⟨rfl, rfl, rfl⟩

theorem witness_NoHeaderMatchesTwoRows :
    (⟨.bufRd, 0x08000#19, 0x78000#19⟩ : TxRow) ∈ txRows ∧
      TxRow.hits ⟨.bufRd, 0x08000#19, 0x78000#19⟩ 0x08000#19 = true := by decide

/-- The edges of both windows: 0x003C and 0x0040, 0x87FF and 0x8800, a misaligned address. -/
theorem witness_BadTransactionsAreBusErrors :
    badTx 2048 ⟨.read, .word, 0x003C, 0⟩ = false ∧ badTx 2048 ⟨.read, .word, 0x0040, 0⟩ = true ∧
      badTx 2048 ⟨.read, .word, 0x0002, 0⟩ = true ∧ badTx 2048 ⟨.write, .byte, 0x87FF, 0⟩ = false ∧
      badTx 2048 ⟨.write, .byte, 0x8800, 0⟩ = true ∧ badTx 2048 ⟨.write, .byte, 0x7FFF, 0⟩ = true := by decide

theorem witness_StepRunsTheDecodedInstruction :
    (pending (Tx.regWrite .cmd 5)).input = .tx (Tx.regWrite .cmd 5) :: [] ∧
      decode (pending (Tx.regWrite .cmd 5)).bufBytes (Tx.regWrite .cmd 5) = .ok .segBuild := ⟨rfl, rfl⟩

theorem witness_StepIsTheStepFunction : (pending (Tx.bufRead 0)).input = .tx (Tx.bufRead 0) :: [] := rfl

theorem witness_StepTakesOneActionAndKeepsTheSize :
    (∃ t, step (pending (Tx.regRead .status)) = .next t) ∧ State.reset.input = [] :=
  ⟨exists_next (by decide), rfl⟩

theorem witness_RegisterReadReturnsItsValue : (syn 0 0).Inv := by decide

theorem witness_RegisterWriteStoresTheMaskedValue :
    writeMask .offset = some 0x0000FFFF#32 ∧ writeMask .ipid = some 0x0000FFFF#32 := by decide

/-- Index 2047 is the last of 2048, 2048 is outside; `none` and `some` exclude each other. -/
theorem witness_BufferReadReturnsTheByte :
    ((2047 : BufIndex).toNat < (holding State.reset 2047 [7]).bufBytes ∧
        Memory.read (holding State.reset 2047 [7]).buf (2047 : BufIndex).toNat = some 7) ∧
      ((2047 : BufIndex).toNat < State.reset.bufBytes ∧ Memory.read State.reset.buf (2047 : BufIndex).toNat = none) ∧
      State.reset.bufBytes ≤ (2048 : BufIndex).toNat := by decide

theorem witness_BufferWriteStoresTheLowByte :
    (2047 : BufIndex).toNat < State.reset.bufBytes ∧ State.reset.bufBytes ≤ (2048 : BufIndex).toNat := by decide

theorem witness_BufferReadSeesTheLastWrite :
    (3 : BufIndex) ≠ 4 ∧ ∃ t u, exec (.bufWr 3 1) State.reset = .next t ∧ exec (.bufWr 4 2) t = .next u :=
  ⟨by decide, _, _, rfl, rfl⟩

theorem witness_CommandWriteRunsTheCommand :
    decodeCmd 5 = .ok .segBuild ∧ decodeCmd 6 = .error .illegalCommand ∧
      ∃ t, exec (.regWr .cmd 5) State.reset = .next t := ⟨rfl, rfl, exists_next (by decide)⟩

theorem witness_FoldHasTheClosedForm : 0xFFFFFFFF < 2 ^ 32 ∧ List.Perm [1#16, 2#16] [2#16, 1#16] := by decide

theorem witness_AccumulatorHoldsTheSum :
    (List.replicate 32780 (0xFF#8)).length ≤ 12 + 32768 ∧ (List.replicate 65547 (0xFF#8)).length ≤ 12 + 65535 :=
  ⟨le_of_eq List.length_replicate, le_of_eq List.length_replicate⟩

/-- V-CSUM-05: the empty span at the end of the buffer. -/
theorem witness_ZeroLengthSpanIsLegal :
    (syn 2048 0).length = 0 ∧ (syn 2048 0).opOffset ≤ (syn 2048 0).bufBytes := by decide

theorem witness_OddSpanIsPaddedAtItsEnd : [0x12#8, 0x34#8, 0x56#8].length % 2 = 1 := by decide

theorem witness_AppendedChecksumValidates : span8.length % 2 = 0 := by decide

theorem witness_ChecksumInsideSpanValidates :
    (2 % 2 = 0) ∧ [0x45#8, 0x00#8, 0x00#8, 0x00#8][2]? = some 0 ∧ [0x45#8, 0x00#8, 0x00#8, 0x00#8][3]? = some 0 := by decide

theorem witness_ZeroWordAndOnesWordSumAlike :
    (2 % 2 = 0 ∧ 2 + 1 < [1#8, 2#8, 3#8, 4#8].length ∧ ∃ b ∈ putBe16 [1#8, 2#8, 3#8, 4#8] 2 0, b ≠ 0) ∧
      (0 % 2 = 0 ∧ 0 + 1 < [0#8, 0#8].length ∧ ∀ b ∈ putBe16 [0#8, 0#8] 0 0, b = 0) := by decide

/-- V-CS-06 at the odd offset 1 and at offset 2040, where it ends at the buffer's last byte. -/
theorem witness_ChecksumIsPositionIndependent :
    ([] : List Byte).length % 2 = 0 ∧ span8.length = csum8.opLength ∧
      ∃ u, HoldsAt csum8.buf csum8.opOffset span8 ∧ csum8.opOffset + csum8.opLength ≤ csum8.bufBytes ∧
        ∃ t : State, t.length = csum8.length ∧ t.opOffset + t.opLength ≤ t.bufBytes ∧
          HoldsAt t.buf t.opOffset span8 ∧ exec .csum csum8 = .next u := by
  obtain ⟨u, hu⟩ := exists_next (o := exec .csum csum8) (by decide)
  exact ⟨rfl, rfl, u, by decide, by decide, holding { State.reset with offset := 2040, length := 8 } 2040 span8,
    rfl, by decide, by decide, hu⟩

/-- V-CSUM-07, the last byte, and V-CSUM-08, one byte past the end. -/
theorem witness_CsumComputesTheChecksum :
    (2047 + 1 ≤ 2048 ∧ [0xFF#8].length = (syn 2047 1).opLength ∧
        HoldsAt (holding (syn 2047 1) 2047 [0xFF]).buf 2047 [0xFF]) ∧
      (syn 2047 2).bufBytes < (syn 2047 2).opOffset + (syn 2047 2).opLength := by decide

/-- V-TC-05, and V-TC-09. -/
theorem witness_TcpCsumComputesTheSegmentChecksum :
    (tcp21.opOffset + tcp21.opLength ≤ tcp21.bufBytes ∧ (synTcp ++ [0x41]).length = tcp21.opLength ∧
        HoldsAt tcp21.buf tcp21.opOffset (synTcp ++ [0x41])) ∧
      (syn 2029 20).bufBytes < (syn 2029 20).opOffset + (syn 2029 20).opLength := by decide

/-- V-CSUM-11. -/
theorem witness_UnwrittenSpanByteFaults :
    (syn 0 1).opOffset + (syn 0 1).opLength ≤ (syn 0 1).bufBytes ∧ 0 < (syn 0 1).opLength ∧
      Memory.read (syn 0 1).buf ((syn 0 1).opOffset + 0) = none := by decide

theorem witness_SwappedAddressesGiveTheSameChecksum : ∃ t, exec .tcpCsum tcp21 = .next t := exists_next (by decide)

/-- Offsets 2028 and 2029, lengths 0xFFEB and 0xFFEC. -/
theorem witness_IpBuildWritesTheHeader :
    ((syn 2028 0xFFEB).opOffset + 20 ≤ (syn 2028 0xFFEB).bufBytes ∧ 20 + (syn 2028 0xFFEB).opLength ≤ 0xFFFF) ∧
      (syn 2029 0).bufBytes < (syn 2029 0).opOffset + 20 ∧
      ((syn 2028 0xFFEC).opOffset + 20 ≤ (syn 2028 0xFFEC).bufBytes ∧ 0xFFFF < 20 + (syn 2028 0xFFEC).opLength) := by decide

theorem witness_TcpBuildWritesTheHeader :
    (syn 2028 0).opOffset + 20 ≤ (syn 2028 0).bufBytes ∧ (syn 2029 0).bufBytes < (syn 2029 0).opOffset + 20 := by decide

theorem witness_SegBuildWritesBothHeaders :
    (syn 2008 0).opOffset + 40 ≤ (syn 2008 0).bufBytes ∧ (syn 2009 0).bufBytes < (syn 2009 0).opOffset + 40 := by decide

/-- Offset 2008 fits both, 2009 and 2028 the first command alone, 2029 neither. -/
theorem witness_SegBuildIsIpBuildThenTcpBuild :
    (syn 0 0).bufBytes ≤ Config.maxBufBytes ∧ (syn 2008 0).opOffset + 40 ≤ (syn 2008 0).bufBytes ∧
      ((syn 2009 0).opOffset + 20 ≤ (syn 2009 0).bufBytes ∧ (syn 2009 0).bufBytes < (syn 2009 0).opOffset + 40) ∧
      ((syn 2028 0).opOffset + 20 ≤ (syn 2028 0).bufBytes ∧ (syn 2028 0).bufBytes < (syn 2028 0).opOffset + 40) ∧
      (syn 2029 0).bufBytes < (syn 2029 0).opOffset + 20 := by decide

theorem witness_SegBuildDatagramVerifies :
    (syn 2008 0).bufBytes ≤ Config.maxBufBytes ∧ (syn 2008 0).opOffset + 40 ≤ (syn 2008 0).bufBytes := by decide

theorem witness_IpHeaderValidates :
    ((syn 2028 0xFFEB).opOffset + 20 ≤ (syn 2028 0xFFEB).bufBytes ∧ 20 + (syn 2028 0xFFEB).opLength ≤ 0xFFFF) ∧
      (syn 2008 0).opOffset + 40 ≤ (syn 2008 0).bufBytes := by decide

/-- TCP_BUILD at the last offset; and the SYN's header as a segment whose field holds its checksum. -/
theorem witness_TcpHeaderVerifies :
    (syn 2028 0).opOffset + 20 ≤ (syn 2028 0).bufBytes ∧
      (synTcp.length = (syn 20 20).opLength ∧ 18 ≤ synTcp.length ∧
        (syn 20 20).opOffset + (syn 20 20).opLength ≤ (syn 20 20).bufBytes ∧
        HoldsAt (holding (syn 20 20) 20 synTcp).buf (syn 20 20).opOffset
          (putBe16 synTcp 16 (icsum (pseudoHeader (syn 20 20).srcAddr (syn 20 20).dstAddr (syn 20 20).length
            ++ putBe16 synTcp 16 0)))) := by decide

theorem witness_IpHeaderRoundTrip :
    (syn 2028 0xFFEB).opOffset + 20 ≤ (syn 2028 0xFFEB).bufBytes ∧ 20 + (syn 2028 0xFFEB).opLength ≤ 0xFFFF := by decide

theorem witness_TcpHeaderRoundTrip : (syn 2028 0).opOffset + 20 ≤ (syn 2028 0).bufBytes := by decide

theorem witness_DatagramRoundTrip : (syn 2008 0).opOffset + 40 ≤ (syn 2008 0).bufBytes := by decide

/-- Each clause for IP_BUILD at the values where the clauses meet, RANGE for SEG_BUILD, the words 0 and 6. -/
theorem witness_CommandErrorsExactly :
    (isCommand .segBuild = true ∧ (syn 2009 0).bufBytes < (syn 2009 0).opOffset + spanBytes (syn 2009 0) .segBuild) ∧
      (isCommand .ipBuild = true ∧
        (syn 2028 0xFFEC).opOffset + spanBytes (syn 2028 0xFFEC) .ipBuild ≤ (syn 2028 0xFFEC).bufBytes ∧
        0xFFFF < 20 + (syn 2028 0xFFEC).opLength) ∧
      ((syn 2028 0xFFEB).opOffset + spanBytes (syn 2028 0xFFEB) .ipBuild ≤ (syn 2028 0xFFEB).bufBytes ∧
        20 + (syn 2028 0xFFEB).opLength ≤ 0xFFFF ∧ ∃ t, exec .ipBuild (syn 2028 0xFFEB) = .next t) ∧
      (0x00000000#32).toNat = 0 ∧ 6 ≤ (0x00000006#32).toNat :=
  ⟨by decide, by decide, ⟨by decide, by decide, exists_next (by decide)⟩, by decide, by decide⟩

theorem witness_EveryCommandWritesStatusInFull :
    isCommand .ipBuild = true ∧ (∃ t, exec .ipBuild (syn 0 20) = .next t) ∧
      (∃ t, exec .ipBuild (syn 2029 0) = .next t) ∧ ∃ t, exec .ipBuild (syn 0 0xFFEC) = .next t :=
  ⟨rfl, exists_next (by decide), exists_next (by decide), exists_next (by decide)⟩

theorem witness_CommandFrame :
    isCommand .tcpBuild = true ∧ (∃ t, exec .tcpBuild (syn 2028 0) = .next t) ∧
      ∃ t, exec .tcpBuild (syn 2029 0) = .next t ∧ t.status ≠ 0x00000001 :=
  ⟨rfl, exists_next (by decide), _, rfl, by decide⟩

/-- V-CSUM-01 with every byte outside its span left out. -/
theorem witness_CommandReadsOnlyItsSpan :
    isCommand .csum = true ∧ readsSpan .csum = true ∧
      (∀ a, csum8.opOffset ≤ a → a < csum8.opOffset + csum8.opLength →
        Memory.read csum8.buf a = Memory.read (holding csum8 0 [0x55]).buf a) ∧
      ∃ t, exec .csum (holding csum8 0 [0x55]) = .next t := by
  refine ⟨rfl, rfl, fun a h1 h2 => ?_, exists_next (by decide)⟩
  have h : ∀ k, k < 8 → Memory.read csum8.buf (1 + k) = Memory.read (holding csum8 0 [0x55]).buf (1 + k) := by decide
  have ho : csum8.opOffset = 1 := rfl
  have hl : csum8.opLength = 8 := rfl
  have := h (a - 1) (by omega)
  rwa [show 1 + (a - 1) = a by omega] at this

theorem witness_NoCommandReadsStatusOrResult :
    isCommand .csum = true ∧ ∃ t, exec .csum csum8 = .next t := ⟨rfl, exists_next (by decide)⟩

theorem witness_CommandsAreIdempotent :
    isCommand .segBuild = true ∧ ∃ t, exec .segBuild (syn 2008 0) = .next t := ⟨rfl, exists_next (by decide)⟩

/-- V-HX-12, V-HX-11 and V-CSUM-11: each side of each equivalence is met. -/
theorem witness_StepFaultsExactly :
    badTx 2048 ⟨.read, .word, 0x0002, 0⟩ = true ∧
      (decode 2048 (Tx.bufRead 0) = .ok (.bufRd 0) ∧ Memory.read State.reset.buf (0 : BufIndex).toNat = none) ∧
      (decode 2048 (Tx.regWrite .cmd 1) = .ok .csum ∧ readsSpan .csum = true ∧
        (syn 0 1).opOffset + (syn 0 1).opLength ≤ (syn 0 1).bufBytes ∧
        0 < (syn 0 1).opLength ∧ Memory.read (syn 0 1).buf ((syn 0 1).opOffset + 0) = none) :=
  ⟨by decide, ⟨rfl, rfl⟩, rfl, rfl, by decide, by decide, by decide⟩

theorem witness_EveryStepKeepsTheStateLegal :
    (pending (Tx.regWrite .cmd 5)).Inv ∧ ∃ t, step (pending (Tx.regWrite .cmd 5)) = .next t :=
  ⟨by decide, exists_next (by decide)⟩

theorem witness_ResetStateIsLegal : Config.minBufBytes ≤ 40 ∧ 32768 ≤ Config.maxBufBytes := by decide

theorem witness_OnlyTheseTransactionsChangeState :
    (pending (Tx.bufWrite 2047 7)).input = .tx (Tx.bufWrite 2047 7) :: [] ∧
      ∃ t, step (pending (Tx.bufWrite 2047 7)) = .next t ∧ writeMask .seq ≠ none ∧
        Memory.read t.buf 2047 ≠ Memory.read (pending (Tx.bufWrite 2047 7)).buf 2047 :=
  ⟨rfl, _, rfl, by decide, by decide⟩

theorem witness_PseudoInstructionsRun :
    (0xFFFF ≤ 0xFFFF ∧ 80 ≤ 0xFFFF) ∧ (1 ≤ 1 ∧ 0 ≤ 1 ∧ 0x2000 ≤ 0xFFFF) ∧ (0xFFFF < 0x10000 ∨ 0xFFFF < 80) ∧
      (1 < 2 ∨ 1 < 0 ∨ 0xFFFF < 0) := by decide

end Sys2Proof.Tests
end

section
/-! PROOF. The host's four transactions and a write to CMD (44_host_access.md R150 to R155), said once:
what each answers, so that later proofs leave the meanings folded. -/

namespace Sys2Proof.Machine

@[simp] theorem exec_regRd (r : Reg) (s : State) : exec (.regRd r) s = .next (s.logRead (s.readReg r)) := rfl

@[simp] theorem exec_regWr_cmd (d : Word) (s : State) : exec (.regWr .cmd d) s = runCommand d s := rfl

/-- A write of any slot but CMD is a plain register write. -/
theorem exec_regWr_of_ne_cmd {r : Reg} (hr : r ≠ .cmd) (d : Word) (s : State) :
    exec (.regWr r d) s = .next (s.writeReg r d) := by
  cases r with
  | cmd => exact absurd rfl hr
  | _ => rfl

/-- A buffer read that answers adds one value to the host's reads. -/
theorem exec_bufRd_next {k : BufIndex} {s t : State} (h : exec (.bufRd k) s = .next t) :
    k.toNat < s.bufBytes ∧ ∃ b, Memory.read s.buf k.toNat = some b ∧ t = s.logRead (b.setWidth 32) := by
  simp only [exec, execBufRd] at h
  split at h
  case isTrue hk =>
    split at h
    case h_1 b hb =>
      cases h
      exact ⟨hk, b, hb, rfl⟩
    case h_2 => cases h
  case isFalse => cases h

/-- A buffer write that answers is inside the buffer and stores the low byte. -/
theorem exec_bufWr_next {k : BufIndex} {d : Word} {s t : State} (h : exec (.bufWr k d) s = .next t) :
    k.toNat < s.bufBytes ∧ t = s.withBuf (Memory.write s.buf k.toNat (d.extractLsb' 0 8)) := by
  simp only [exec, execBufWr] at h
  split at h
  case isTrue hk =>
    cases h
    exact ⟨hk, rfl⟩
  case isFalse => cases h

/-- A write to CMD runs the command its word encodes, or raises ILLEGAL_CMD (R154). -/
theorem runCommand_cases (d : Word) (s : State) :
    (∃ c, decodeCmd d = .ok c ∧ isCommand c = true ∧ runCommand d s = exec c s) ∨
      (decodeCmd d = .error .illegalCommand ∧ runCommand d s = raiseError .illegalCmd s) := by
  have key : (∃ c, decodeCmd d = .ok c ∧ isCommand c = true) ∨ decodeCmd d = .error .illegalCommand := by
    rw [decodeCmd_eq]
    split_ifs
    · exact .inl ⟨_, rfl, rfl⟩
    · exact .inl ⟨_, rfl, rfl⟩
    · exact .inl ⟨_, rfl, rfl⟩
    · exact .inl ⟨_, rfl, rfl⟩
    · exact .inl ⟨_, rfl, rfl⟩
    · exact .inr rfl
  obtain ⟨c, hd, hc⟩ | hd := key
  · refine .inl ⟨c, hd, hc, ?_⟩
    rw [runCommand, hd]
    cases c with
    | csum | ipBuild | tcpBuild | tcpCsum | segBuild => rfl
    | regRd _ | regWr _ _ | bufRd _ | bufWr _ _ => cases hc
  · exact .inr ⟨hd, by rw [runCommand, hd]⟩

/-- TCPCTL changes only by a write of TCPCTL, which stores its 18 live bits (R155). -/
theorem State.writeReg_tcpctl (s : State) (r : Reg) (d : Word) :
    (s.writeReg r d).tcpctl = if r = .tcpctl then d &&& 0x0003FFFF#32 else s.tcpctl := by
  cases r <;> rfl

end Sys2Proof.Machine
end

section
/-! PROOF. The invariant of the state (00_scope.md R7, 10_state.md R23, R32, 20_memory.md R40): it holds at
reset, every named update of the state keeps it, hence every instruction and every step. -/

namespace Sys2Proof.Machine

theorem State.resetOf_inv {n : Nat} (hlo : Config.minBufBytes ≤ n) (hhi : n ≤ Config.maxBufBytes) :
    (State.resetOf n).Inv :=
  ⟨hlo, hhi, Memory.wf_nil, rfl, BitVec.zero_and, rfl⟩

/-! ### The named updates keep the invariant -/

section
variable {s : State} (hs : s.Inv)
include hs

theorem State.withInput_inv (l : List Input) : (s.withInput l).Inv := hs

theorem State.withResult_inv (v : Word) : (s.withResult v).Inv := hs

theorem State.logRead_inv (v : Word) : (s.logRead v).Inv := hs

theorem State.withStatus_inv {v : Word} (hv : legalStatus v = true) : (s.withStatus v).Inv := by
  obtain ⟨hlo, hhi, hwf, hin, htcp, -⟩ := hs
  exact ⟨hlo, hhi, hwf, hin, htcp, hv⟩

theorem State.withBuf_inv {m : Memory} (hwf : Memory.wf m = true) (hin : Memory.inside s.bufBytes m = true) :
    (s.withBuf m).Inv := by
  obtain ⟨hlo, hhi, -, -, htcp, hst⟩ := hs
  exact ⟨hlo, hhi, hwf, hin, htcp, hst⟩

/-- A span of bytes written inside the buffer. -/
theorem State.withBuf_writeSpan_inv {o : Nat} {bs : List Byte} (h : o + bs.length ≤ s.bufBytes) :
    (s.withBuf (Memory.writeSpan s.buf o bs)).Inv := by
  have ⟨_, _, hwf, hin, _, _⟩ := hs
  exact State.withBuf_inv hs (Memory.wf_writeSpan o bs hwf) (Memory.inside_writeSpan h hin)

/-- The reserved bits of TCPCTL stay zero because the write mask leaves them out. -/
theorem State.writeReg_inv (r : Reg) (d : Word) : (s.writeReg r d).Inv := by
  have htcp' : (s.writeReg r d).tcpctl &&& 0xFFFC0000#32 = 0 := by
    have ⟨_, _, _, _, htcp, _⟩ := hs
    rw [State.writeReg_tcpctl]
    split
    · rw [BitVec.and_assoc, show (0x0003FFFF#32 &&& 0xFFFC0000#32) = 0#32 by decide, BitVec.and_zero]
      rfl
    · exact htcp
  obtain ⟨hlo, hhi, hwf, hin, -, hst⟩ := hs
  rw [State.Inv, State.writeReg_bufBytes, State.writeReg_buf, State.writeReg_status]
  exact ⟨hlo, hhi, hwf, hin, htcp', hst⟩

theorem applyReset_inv : (applyReset s).Inv := by
  obtain ⟨hlo, hhi, -⟩ := hs
  exact State.resetOf_inv hlo hhi

end

/-! ### The instructions and the step keep the invariant -/

theorem legalStatus_statusError (e : CmdError) : legalStatus (statusError e) = true := by
  cases e <;> decide

theorem legalStatus_statusDone : legalStatus statusDone = true := by decide

/-- A command needs at least the span it stores to lie inside the buffer. -/
theorem bytesStored_le_spanBytes (s : State) (c : Instr) : bytesStored c ≤ spanBytes s c := by
  cases c <;> simp [bytesStored, spanBytes]

theorem command_keeps_inv {c : Instr} {s t : State} (hc : isCommand c = true) (hs : s.Inv)
    (h : exec c s = .next t) : t.Inv := by
  obtain ⟨-, rfl⟩ | ⟨-, -, -, rfl⟩ | ⟨hf, r, rfl⟩ := command_next hc h
  · exact State.withStatus_inv hs (legalStatus_statusError .range)
  · exact State.withStatus_inv hs (legalStatus_statusError .lengthOvf)
  · have hfit : s.opOffset + (storedBytes s c).length ≤ s.bufBytes := by
      have := bytesStored_le_spanBytes s c
      rw [storedBytes_length]
      omega
    exact State.withStatus_inv (State.withResult_inv (State.withBuf_writeSpan_inv hs hfit) r) legalStatus_statusDone

theorem runCommand_keeps_inv {d : Word} {s t : State} (hs : s.Inv) (h : runCommand d s = .next t) : t.Inv := by
  obtain ⟨c, -, hc, he⟩ | ⟨-, he⟩ := runCommand_cases d s
  · exact command_keeps_inv hc hs (he ▸ h)
  · rw [he, raiseError_eq] at h
    cases h
    exact State.withStatus_inv hs (legalStatus_statusError .illegalCmd)

theorem exec_keeps_inv {i : Instr} {s t : State} (hs : s.Inv) (h : exec i s = .next t) : t.Inv := by
  cases i with
  | csum | ipBuild | tcpBuild | tcpCsum | segBuild => exact command_keeps_inv rfl hs h
  | regRd r =>
    rw [exec_regRd] at h
    cases h
    exact State.logRead_inv hs _
  | regWr r d =>
    by_cases hr : r = .cmd
    · rw [hr, exec_regWr_cmd] at h
      exact runCommand_keeps_inv hs h
    · rw [exec_regWr_of_ne_cmd hr] at h
      cases h
      exact State.writeReg_inv hs r d
  | bufRd k =>
    obtain ⟨-, b, -, rfl⟩ := exec_bufRd_next h
    exact State.logRead_inv hs _
  | bufWr k d =>
    obtain ⟨hk, rfl⟩ := exec_bufWr_next h
    have ⟨_, _, hwf, hin, _, _⟩ := hs
    exact State.withBuf_inv hs (Memory.wf_write _ _ hwf) (Memory.inside_write _ hk hin)

theorem step_keeps_inv {s t : State} (hs : s.Inv) (h : step s = .next t) : t.Inv := by
  obtain ⟨-, he⟩ | ⟨rest, -, he⟩ | ⟨_, _, _, -, -, he⟩ | ⟨_, rest, i, -, -, he⟩ := step_cases s
  · rw [he] at h
    cases h
    exact hs
  · rw [he] at h
    cases h
    exact applyReset_inv (State.withInput_inv hs rest)
  · rw [he] at h
    cases h
  · exact exec_keeps_inv (State.withInput_inv hs rest) (he ▸ h)

end Sys2Proof.Machine

namespace Sys2Proof

open Sys2Proof.Machine

/-- Settles O55: `step_keeps_inv`, by the cases of a step and then of the instruction it runs. -/
theorem everyStepKeepsTheStateLegal : Obligations.EveryStepKeepsTheStateLegal :=
  fun _ _ hs h => step_keeps_inv hs h

/-- Settles O56: the size 2048 of `State.reset` is one of the allowed sizes. -/
theorem resetStateIsLegal : Obligations.ResetStateIsLegal :=
  ⟨State.resetOf_inv (by decide) (by decide), fun _ hlo hhi => State.resetOf_inv hlo hhi⟩

end Sys2Proof
end

section
/-! PROOF. Registers and STATUS right after reset, and the slots no host write reaches (10_state.md R34, R35). -/

namespace Sys2Proof.Machine

/-- A reset machine reads 0 in every slot (R35). -/
@[simp] theorem State.readReg_resetOf (n : Nat) (r : Reg) : (State.resetOf n).readReg r = 0 := by
  cases r with
  | status | tcpctl => exact BitVec.zero_and
  | _ => rfl

/-- A slot without a write mask stores nothing (R151, R155). -/
theorem State.writeReg_of_writeMask_none {r : Reg} (hr : writeMask r = none) (s : State) (d : Word) :
    s.writeReg r d = s := by
  cases r with
  | cmd | status | result | reserved _ => rfl
  | offset | length | srcAddr | dstAddr | ports | seq | acknum | tcpctl | ipid => cases hr

end Sys2Proof.Machine

namespace Sys2Proof

open Sys2Proof.Machine

/-- Settles O1: the reset state holds 0 in every register field and lists no byte. -/
theorem resetLeavesRegistersZero : Obligations.ResetLeavesRegistersZero := fun n =>
  ⟨State.readReg_resetOf n, rfl, rfl, rfl, rfl, rfl, rfl, rfl, rfl, rfl, rfl, rfl, Memory.read_nil, rfl⟩

/-- Settles O16: none of these slots has a write mask (R151, R155), and a reserved slot reads 0. -/
theorem reservedAndReadOnlySlotsIgnoreWrites : Obligations.ReservedAndReadOnlySlotsIgnoreWrites := by
  intro s k d
  have ignored : ∀ r, r ≠ .cmd → writeMask r = none → exec (.regWr r d) s = .next s := fun r hr hm => by
    rw [exec_regWr_of_ne_cmd hr, State.writeReg_of_writeMask_none hm]
  exact ⟨exec_regRd (.reserved k) s, ignored (.reserved k) (by simp) rfl, ignored .status (by simp) rfl,
    ignored .result (by simp) rfl⟩

end Sys2Proof
end

section
/-! PROOF. What a command leaves in STATUS, and that it looks at neither STATUS nor RESULT
(10_state.md R23, R24). -/

namespace Sys2Proof.Machine

/-! ### The flags of the values a command leaves in STATUS -/

theorem statusDone_flags : doneOf statusDone = true ∧ errOf statusDone = false ∧ ecodeOf statusDone = 0 := by decide

/-- An error sets ERR and its own ECODE and clears DONE. -/
theorem statusError_flags (e : CmdError) :
    doneOf (statusError e) = false ∧ errOf (statusError e) = true ∧ ecodeOf (statusError e) = e.code.setWidth 4 := by
  cases e <;> decide

theorem statusError_ne_done (e : CmdError) : statusError e ≠ statusDone := by
  cases e <;> decide

/-! ### Every answer of a command, by its operands -/

/-- RESULT of a command whose checks pass; it has none where a byte of the span it reads is unwritten. -/
def commandResult (s : State) : Instr → Option Word
  | .csum => (Memory.readSpan s.buf s.opOffset s.opLength).map fun bytes => (icsum bytes).setWidth 32
  | .tcpCsum =>
    (Memory.readSpan s.buf s.opOffset s.opLength).map fun bytes =>
      (segmentChecksum s.srcAddr s.dstAddr s.length bytes).setWidth 32
  | .ipBuild => some ((ipChecksum (BitVec.ofNat 16 (20 + s.opLength)) s.ipid s.srcAddr s.dstAddr).setWidth 32)
  | .tcpBuild => some ((tcpChecksum s.srcAddr s.dstAddr s.opTcp).setWidth 32)
  | .segBuild =>
    some (ipChecksum segTotalLength s.ipid s.srcAddr s.dstAddr ++ tcpChecksum s.srcAddr s.dstAddr s.opTcp)
  | .regRd _ | .regWr _ _ | .bufRd _ | .bufWr _ _ => none

section
variable {c : Instr} {s : State} (hc : isCommand c = true)
include hc

theorem command_range (hf : s.bufBytes < s.opOffset + spanBytes s c) :
    exec c s = .next (s.withStatus (statusError .range)) := by
  cases c with
  | csum => exact execCsum_range hf
  | tcpCsum => exact execTcpCsum_range hf
  | ipBuild => exact execIpBuild_range hf
  | tcpBuild => exact execTcpBuild_range hf
  | segBuild => exact execSegBuild_range hf
  | regRd _ | regWr _ _ | bufRd _ | bufWr _ _ => cases hc

variable (hf : s.opOffset + spanBytes s c ≤ s.bufBytes)
include hf

theorem command_unwritten (hr : commandResult s c = none) : exec c s = .fault .unwrittenByte := by
  cases c with
  | csum => exact execCsum_unwritten hf (Option.map_eq_none_iff.mp hr)
  | tcpCsum => exact execTcpCsum_unwritten hf (Option.map_eq_none_iff.mp hr)
  | ipBuild | tcpBuild | segBuild => cases hr
  | regRd _ | regWr _ _ | bufRd _ | bufWr _ _ => cases hc

theorem command_done (hn : c = .ipBuild → 20 + s.opLength ≤ 0xFFFF) {r : Word} (hr : commandResult s c = some r) :
    exec c s =
      .next (((s.withBuf (Memory.writeSpan s.buf s.opOffset (storedBytes s c))).withResult r).withStatus statusDone) := by
  cases c with
  | csum =>
    obtain ⟨bytes, hb, rfl⟩ := Option.map_eq_some_iff.mp hr
    exact execCsum_done hf hb
  | tcpCsum =>
    obtain ⟨bytes, hb, rfl⟩ := Option.map_eq_some_iff.mp hr
    exact execTcpCsum_done hf hb
  | ipBuild =>
    cases hr
    exact execIpBuild_done hf (hn rfl)
  | tcpBuild =>
    cases hr
    exact execTcpBuild_done hf
  | segBuild =>
    cases hr
    have happ := Memory.writeSpan_append s.buf s.opOffset (ipHeader segTotalLength s.ipid s.srcAddr s.dstAddr)
      s.builtTcpHeader
    rw [ipHeader_length] at happ
    rw [storedBytes, ← happ]
    exact execSegBuild_done hf
  | regRd _ | regWr _ _ | bufRd _ | bufWr _ _ => cases hc

end

/-- Everything a command can be, with the operands that decide it: RANGE is checked before LENGTH_OVF, and both
before a byte is read (60_exceptions.md R171, R172). -/
theorem command_cases {c : Instr} (hc : isCommand c = true) (s : State) :
    (s.bufBytes < s.opOffset + spanBytes s c ∧ exec c s = .next (s.withStatus (statusError .range))) ∨
      (c = .ipBuild ∧ s.opOffset + spanBytes s c ≤ s.bufBytes ∧ 0xFFFF < 20 + s.opLength ∧
        exec c s = .next (s.withStatus (statusError .lengthOvf))) ∨
      (s.opOffset + spanBytes s c ≤ s.bufBytes ∧ commandResult s c = none ∧ exec c s = .fault .unwrittenByte) ∨
      (s.opOffset + spanBytes s c ≤ s.bufBytes ∧ (c = .ipBuild → 20 + s.opLength ≤ 0xFFFF) ∧
        ∃ r, commandResult s c = some r ∧ exec c s =
          .next (((s.withBuf (Memory.writeSpan s.buf s.opOffset (storedBytes s c))).withResult r).withStatus
            statusDone)) := by
  by_cases hf : s.opOffset + spanBytes s c ≤ s.bufBytes
  · by_cases hn : c = .ipBuild → 20 + s.opLength ≤ 0xFFFF
    · cases hr : commandResult s c with
      | none => exact .inr (.inr (.inl ⟨hf, rfl, command_unwritten hc hf hr⟩))
      | some r => exact .inr (.inr (.inr ⟨hf, hn, r, rfl, command_done hc hf hn hr⟩))
    · obtain ⟨rfl, hovf⟩ := Classical.not_imp.mp hn
      have hovf' : 0xFFFF < 20 + s.opLength := by omega
      exact .inr (.inl ⟨rfl, hf, hovf', execIpBuild_lengthOvf hf hovf'⟩)
  · have hf' : s.bufBytes < s.opOffset + spanBytes s c := by omega
    exact .inl ⟨hf', command_range hc hf'⟩

/-! ### Another STATUS or RESULT before the command -/

/-- Both ends of a command overwrite STATUS and nothing before them reads it. -/
theorem command_withStatus {c : Instr} (hc : isCommand c = true) (s : State) (v : Word) :
    exec c (s.withStatus v) = exec c s := by
  cases c with
  | csum | ipBuild | tcpBuild | tcpCsum | segBuild => rfl
  | regRd _ | regWr _ _ | bufRd _ | bufWr _ _ => cases hc

/-- No operand of a command is RESULT, so from another RESULT it ends the same way: an error keeps that RESULT,
completion overwrites it. -/
theorem command_withResult {c : Instr} {s t : State} (hc : isCommand c = true) (h : exec c s = .next t) (w : Word) :
    exec c (s.withResult w) = .next (t.withResult (if t.status = statusDone then t.result else w)) := by
  obtain ⟨hf, he⟩ | ⟨rfl, hf, hn, he⟩ | ⟨-, -, he⟩ | ⟨hf, hn, r, hr, he⟩ := command_cases hc s
  · cases he.symm.trans h
    rw [State.withStatus_status, if_neg (statusError_ne_done .range)]
    exact command_range (s := s.withResult w) hc hf
  · cases he.symm.trans h
    rw [State.withStatus_status, if_neg (statusError_ne_done .lengthOvf)]
    exact execIpBuild_lengthOvf (s := s.withResult w) hf hn
  · cases he.symm.trans h
  · cases he.symm.trans h
    rw [State.withStatus_status, if_pos rfl]
    exact command_done (s := s.withResult w) hc hf hn hr

end Sys2Proof.Machine

namespace Sys2Proof

open Sys2Proof.Machine

/-- Settles O48: a command answers only by completing or by one of two errors (`command_next`), and each
leaves its own value in STATUS. -/
theorem everyCommandWritesStatusInFull : Obligations.EveryCommandWritesStatusInFull := by
  intro s t c hc h
  obtain ⟨-, rfl⟩ | ⟨rfl, -, -, rfl⟩ | ⟨-, r, rfl⟩ := command_next hc h
  · obtain ⟨hd, he, hcode⟩ := statusError_flags .range
    exact .inr (.inl ⟨rfl, hd, he, hcode, rfl⟩)
  · obtain ⟨hd, he, hcode⟩ := statusError_flags .lengthOvf
    exact .inr (.inr ⟨rfl, rfl, hd, he, hcode, rfl⟩)
  · exact .inl ⟨rfl, statusDone_flags⟩

/-- Settles O51: both ends of a command overwrite STATUS, and only completion writes RESULT. -/
theorem noCommandReadsStatusOrResult : Obligations.NoCommandReadsStatusOrResult :=
  fun s _ v w hc => ⟨command_withStatus hc s v, fun _ h => command_withResult hc h w⟩

end Sys2Proof
end

section
/-! PROOF. Which transaction can change which piece of state: what a decoded transaction says about its
header (30_encoding.md R61), then the frame of each of the four kinds (44_host_access.md R150 to R154). -/

namespace Sys2Proof.Machine

/-! ### The transaction behind a decoded instruction -/

/-- An aligned address below 0x40 is the address of the slot its index bits name (R61, 10_state.md R21). -/
theorem addr_regOfAddr {a : Addr} (hhi : a.extractLsb' 6 10 = 0#10) (hlo : a.extractLsb' 0 2 = 0#2) :
    (regOfAddr a).addr = a := by
  rw [Reg.addr, regOfAddr, Reg.index_ofIndex, ← hhi, ← hlo,
    BitVec.extractLsb'_append_extractLsb'_eq_extractLsb' (by decide),
    BitVec.extractLsb'_append_extractLsb'_eq_extractLsb' (by decide)]
  exact BitVec.extractLsb'_eq_self

/-- What a transaction that decodes is: an aligned 32-bit access of a register slot, or an 8-bit access of a byte
inside the buffer (R61). -/
theorem decodeTx_cases {n : Nat} {x : Tx} {i : Instr} (h : decodeTx n x = .ok i) :
    (x.size = .word ∧ ∃ r, x.addr = r.addr ∧
        (x.dir = .read ∧ i = .regRd r ∨ x.dir = .write ∧ i = .regWr r x.data)) ∨
      (x.size = .byte ∧ ∃ k : BufIndex, k.toNat < n ∧ x.addr.toNat = 0x8000 + k.toNat ∧
        (x.dir = .read ∧ i = .bufRd k ∨ x.dir = .write ∧ i = .bufWr k x.data)) := by
  rw [decodeTx, txKind_eq] at h
  by_cases hreg : x.size = .word ∧ x.addr.extractLsb' 6 10 = 0#10 ∧ x.addr.extractLsb' 0 2 = 0#2
  · rw [if_pos hreg] at h
    obtain ⟨hsize, hhi, hlo⟩ := hreg
    refine .inl ⟨hsize, regOfAddr x.addr, (addr_regOfAddr hhi hlo).symm, ?_⟩
    cases hdir : x.dir <;> simp only [hdir, Except.ok.injEq] at h
    · exact .inl ⟨rfl, h.symm⟩
    · exact .inr ⟨rfl, h.symm⟩
  · rw [if_neg hreg] at h
    by_cases hbuf : x.size = .byte ∧ x.addr.getLsbD 15 = true
    · rw [if_pos hbuf] at h
      obtain ⟨hsize, h15⟩ := hbuf
      obtain ⟨hlo, hidx, -⟩ := bufIndexOfAddr_eq x.addr h15
      by_cases hk : (bufIndexOfAddr x.addr).toNat < n
      · refine .inr ⟨hsize, bufIndexOfAddr x.addr, hk, by omega, ?_⟩
        cases hdir : x.dir <;> simp only [hdir, if_pos hk, Except.ok.injEq] at h
        · exact .inl ⟨rfl, h.symm⟩
        · exact .inr ⟨rfl, h.symm⟩
      · cases hdir : x.dir <;> simp [hdir, hk] at h
    · rw [if_neg hbuf] at h
      cases h

/-- Running a decoded transaction is running what R61 makes of it: a command's own instruction and the write
of CMD that carries its word have one meaning (R62, R154). -/
theorem exec_of_decode {n : Nat} {x : Tx} {i : Instr} (h : decode n x = .ok i) :
    ∃ j, decodeTx n x = .ok j ∧ ∀ s, exec i s = exec j s := by
  unfold decode at h
  split at h
  case h_1 d hd =>
    refine ⟨_, hd, fun s => ?_⟩
    rw [exec_regWr_cmd]
    obtain ⟨c, hc, -, hrun⟩ | ⟨hc, -⟩ := runCommand_cases d s
    · rw [hc] at h
      cases h
      exact hrun.symm
    · rw [hc] at h
      cases h
      rfl
  case h_2 => exact ⟨i, h, fun _ => rfl⟩

/-- A step on a transaction that answers runs what R61 makes of it. -/
theorem step_tx_next {s t : State} {x : Tx} {rest : List Input} (hin : s.input = .tx x :: rest)
    (h : step s = .next t) : ∃ j, decodeTx s.bufBytes x = .ok j ∧ exec j (s.withInput rest) = .next t := by
  obtain ⟨hin', -⟩ | ⟨_, hin', -⟩ | ⟨_, _, _, -, -, he⟩ | ⟨y, rest', i, hin', hdec, he⟩ := step_cases s
  · cases hin.symm.trans hin'
  · cases hin.symm.trans hin'
  · cases h.symm.trans he
  · cases hin.symm.trans hin'
    obtain ⟨j, hj, hexec⟩ := exec_of_decode hdec
    exact ⟨j, hj, by rw [← hexec, ← he, h]⟩

/-! ### Register values across the updates -/

theorem State.writeReg_offset (s : State) (r : Reg) (d : Word) :
    (s.writeReg r d).offset = if r = .offset then (d &&& 0x0000FFFF#32).setWidth 16 else s.offset := by
  cases r <;> rfl

theorem State.writeReg_length (s : State) (r : Reg) (d : Word) :
    (s.writeReg r d).length = if r = .length then (d &&& 0x0000FFFF#32).setWidth 16 else s.length := by
  cases r <;> rfl

theorem State.writeReg_srcAddr (s : State) (r : Reg) (d : Word) :
    (s.writeReg r d).srcAddr = if r = .srcAddr then d &&& 0xFFFFFFFF#32 else s.srcAddr := by
  cases r <;> rfl

theorem State.writeReg_dstAddr (s : State) (r : Reg) (d : Word) :
    (s.writeReg r d).dstAddr = if r = .dstAddr then d &&& 0xFFFFFFFF#32 else s.dstAddr := by
  cases r <;> rfl

theorem State.writeReg_ports (s : State) (r : Reg) (d : Word) :
    (s.writeReg r d).ports = if r = .ports then d &&& 0xFFFFFFFF#32 else s.ports := by
  cases r <;> rfl

theorem State.writeReg_seq (s : State) (r : Reg) (d : Word) :
    (s.writeReg r d).seq = if r = .seq then d &&& 0xFFFFFFFF#32 else s.seq := by
  cases r <;> rfl

theorem State.writeReg_acknum (s : State) (r : Reg) (d : Word) :
    (s.writeReg r d).acknum = if r = .acknum then d &&& 0xFFFFFFFF#32 else s.acknum := by
  cases r <;> rfl

theorem State.writeReg_ipid (s : State) (r : Reg) (d : Word) :
    (s.writeReg r d).ipid = if r = .ipid then (d &&& 0x0000FFFF#32).setWidth 16 else s.ipid := by
  cases r <;> rfl

/-- A host write of one register leaves the value of every other one. -/
theorem regValue_writeReg_of_ne {q r : Reg} (h : r ≠ q) (s : State) (d : Word) :
    regValue (s.writeReg r d) q = regValue s q := by
  cases q with
  | cmd | reserved _ => rfl
  | status => exact State.writeReg_status s r d
  | result => exact State.writeReg_result s r d
  | offset => simp only [regValue, State.writeReg_offset, if_neg h]
  | length => simp only [regValue, State.writeReg_length, if_neg h]
  | srcAddr => simp only [regValue, State.writeReg_srcAddr, if_neg h]
  | dstAddr => simp only [regValue, State.writeReg_dstAddr, if_neg h]
  | ports => simp only [regValue, State.writeReg_ports, if_neg h]
  | seq => simp only [regValue, State.writeReg_seq, if_neg h]
  | acknum => simp only [regValue, State.writeReg_acknum, if_neg h]
  | tcpctl => simp only [regValue, State.writeReg_tcpctl, if_neg h]
  | ipid => simp only [regValue, State.writeReg_ipid, if_neg h]

@[simp] theorem regValue_withInput (s : State) (l : List Input) (r : Reg) :
    regValue (s.withInput l) r = regValue s r := by
  cases r <;> rfl

@[simp] theorem regValue_logRead (s : State) (v : Word) (r : Reg) : regValue (s.logRead v) r = regValue s r := by
  cases r <;> rfl

@[simp] theorem regValue_withBuf (s : State) (m : Memory) (r : Reg) : regValue (s.withBuf m) r = regValue s r := by
  cases r <;> rfl

/-- The read/write registers are among what `SameParams` holds fixed. -/
theorem regValue_of_sameParams {s t : State} (h : SameParams s t) {r : Reg} (hr : writeMask r ≠ none) :
    regValue t r = regValue s r := by
  obtain ⟨ho, hl, hsrc, hdst, hp, hsq, hack, htcp, hid, -⟩ := h
  cases r with
  | cmd | status | result | reserved _ => exact absurd rfl hr
  | offset => rw [regValue, ho, regValue]
  | length => rw [regValue, hl, regValue]
  | srcAddr => exact hsrc
  | dstAddr => exact hdst
  | ports => exact hp
  | seq => exact hsq
  | acknum => exact hack
  | tcpctl => exact htcp
  | ipid => rw [regValue, hid, regValue]

/-! ### The frame of a write to CMD -/

theorem command_sameParams {c : Instr} {s t : State} (hc : isCommand c = true) (h : exec c s = .next t) :
    SameParams s t := by
  obtain ⟨-, rfl⟩ | ⟨-, -, -, rfl⟩ | ⟨-, _, rfl⟩ := command_next hc h
  · exact ⟨rfl, rfl, rfl, rfl, rfl, rfl, rfl, rfl, rfl, rfl, rfl, rfl⟩
  · exact ⟨rfl, rfl, rfl, rfl, rfl, rfl, rfl, rfl, rfl, rfl, rfl, rfl⟩
  · exact ⟨rfl, rfl, rfl, rfl, rfl, rfl, rfl, rfl, rfl, rfl, rfl, rfl⟩

/-- Whatever the word, a write to CMD changes no parameter register (R154). -/
theorem runCommand_sameParams {d : Word} {s t : State} (h : runCommand d s = .next t) : SameParams s t := by
  obtain ⟨c, -, hc, he⟩ | ⟨-, he⟩ := runCommand_cases d s
  · exact command_sameParams hc (he ▸ h)
  · rw [he, raiseError_eq] at h
    cases h
    exact ⟨rfl, rfl, rfl, rfl, rfl, rfl, rfl, rfl, rfl, rfl, rfl, rfl⟩

end Sys2Proof.Machine

namespace Sys2Proof

open Sys2Proof.Machine

/-- Settles O57, by the four kinds of transaction: reads add to the host's log, a write to CMD keeps the parameter
registers, any other register write reaches its own register, and BUF_WR reaches its own byte. -/
theorem onlyTheseTransactionsChangeState : Obligations.OnlyTheseTransactionsChangeState := by
  intro s t x rest hin hstep
  obtain ⟨j, hj, he⟩ := step_tx_next hin hstep
  obtain ⟨hsize, r, haddr, ⟨-, rfl⟩ | ⟨hdir, rfl⟩⟩ | ⟨-, k, -, haddr, ⟨-, rfl⟩ | ⟨hdir, rfl⟩⟩ := decodeTx_cases hj
  · rw [exec_regRd] at he
    cases he
    exact ⟨by simp, by simp, by simp, fun _ => rfl⟩
  · have notRead : x.dir ≠ .read := by simp [hdir]
    by_cases hr : r = .cmd
    · subst hr
      refine ⟨fun _ => ⟨hdir, hsize, haddr⟩, fun q hq hne => absurd ?_ hne, fun _ _ => ⟨hdir, .inl haddr⟩,
        fun h => absurd h notRead⟩
      rw [regValue_of_sameParams (runCommand_sameParams he) hq, regValue_withInput]
    · rw [exec_regWr_of_ne_cmd hr] at he
      cases he
      refine ⟨by simp, fun q _ hne => ?_, by simp, fun h => absurd h notRead⟩
      have hq : r = q := by
        by_contra hrq
        exact hne (by rw [regValue_writeReg_of_ne hrq, regValue_withInput])
      exact ⟨hdir, hsize, hq ▸ haddr⟩
  · obtain ⟨-, b, -, rfl⟩ := exec_bufRd_next he
    exact ⟨by simp, by simp, by simp, fun _ => rfl⟩
  · obtain ⟨-, rfl⟩ := exec_bufWr_next he
    refine ⟨by simp, by simp, fun a hne => ⟨hdir, .inr ?_⟩, fun h => by simp [hdir] at h⟩
    have ha : a = k.toNat := by
      by_contra hak
      exact hne (Memory.read_write_other _ _ hak)
    rw [haddr, ha]

end Sys2Proof
end

section
/-! PROOF. The data buffer as the host and the commands use it (20_memory.md R42, R47, R49, R53): a read sees
the last write of its byte, and a command depends on the span it reads, changes the span it stores, and run
again changes nothing more. -/

namespace Sys2Proof.Machine

/-! ### A byte read by the host -/

/-- A read of a written byte inside the buffer returns it (R152). -/
theorem exec_bufRd_of_read {k : BufIndex} {s : State} {b : Byte} (hk : k.toNat < s.bufBytes)
    (hb : Memory.read s.buf k.toNat = some b) : exec (.bufRd k) s = .next (s.logRead (b.setWidth 32)) := by
  rw [exec, execBufRd, if_pos hk, hb]

/-! ### What a command leaves in the buffer -/

/-- A command that reads the buffer stores nothing there (R42). -/
theorem bytesStored_of_readsSpan {c : Instr} (hc : readsSpan c = true) : bytesStored c = 0 := by
  cases c with
  | csum | tcpCsum => rfl
  | ipBuild | tcpBuild | segBuild | regRd _ | regWr _ _ | bufRd _ | bufWr _ _ => cases hc

section
variable {c : Instr} {s t : State} (hc : isCommand c = true) (h : exec c s = .next t)
include hc h

/-- A command that answers has stored its bytes, or it ended in an error and changed STATUS alone (R171). -/
theorem command_stored_or_error :
    (t.status = statusDone ∧ t.buf = Memory.writeSpan s.buf s.opOffset (storedBytes s c)) ∨
      (t.status ≠ statusDone ∧ t.buf = s.buf ∧ t.result = s.result) := by
  obtain ⟨-, rfl⟩ | ⟨-, -, -, rfl⟩ | ⟨-, _, rfl⟩ := command_next hc h
  · exact .inr ⟨statusError_ne_done .range, rfl, rfl⟩
  · exact .inr ⟨statusError_ne_done .lengthOvf, rfl, rfl⟩
  · exact .inl ⟨rfl, rfl⟩

theorem command_read_outside {a : Nat} (ha : a < s.opOffset ∨ s.opOffset + bytesStored c ≤ a) :
    Memory.read t.buf a = Memory.read s.buf a := by
  obtain ⟨-, hbuf⟩ | ⟨-, hbuf, -⟩ := command_stored_or_error hc h
  · rw [hbuf]
    exact Memory.read_writeSpan_outside s.buf (by rwa [storedBytes_length])
  · rw [hbuf]

end

/-! ### A command over another buffer -/

/-- The bytes a command stores come from the parameter registers alone (R42). -/
@[simp] theorem storedBytes_withBuf (s : State) (m : Memory) (c : Instr) :
    storedBytes (s.withBuf m) c = storedBytes s c := by
  cases c <;> rfl

@[simp] theorem spanBytes_withBuf (s : State) (m : Memory) (c : Instr) :
    spanBytes (s.withBuf m) c = spanBytes s c := by
  cases c <;> rfl

section
variable {c : Instr} {s : State} {m : Memory}
  (hm : readsSpan c = true →
    ∀ a, s.opOffset ≤ a → a < s.opOffset + s.opLength → Memory.read m a = Memory.read s.buf a)
include hm

/-- RESULT depends on no byte outside the span the command reads (R42). -/
theorem commandResult_withBuf : commandResult (s.withBuf m) c = commandResult s c := by
  have hspan : readsSpan c = true →
      Memory.readSpan m s.opOffset s.opLength = Memory.readSpan s.buf s.opOffset s.opLength :=
    fun hc => Memory.readSpan_congr fun k hk => hm hc (s.opOffset + k) (by omega) (by omega)
  cases c with
  | csum | tcpCsum => simp [commandResult, hspan rfl]
  | ipBuild | tcpBuild | segBuild | regRd _ | regWr _ _ | bufRd _ | bufWr _ _ => rfl

/-- Over another buffer that agrees on the span it reads, a command ends the same way: an error leaves that
buffer, completion stores the same bytes into it (R42, R47). -/
theorem command_withBuf {t : State} (hc : isCommand c = true) (h : exec c s = .next t) :
    exec c (s.withBuf m) = .next (t.withBuf
      (if t.status = statusDone then Memory.writeSpan m s.opOffset (storedBytes s c) else m)) := by
  obtain ⟨hf, he⟩ | ⟨rfl, hf, hn, he⟩ | ⟨-, -, he⟩ | ⟨hf, hn, r, hr, he⟩ := command_cases hc s
  · cases he.symm.trans h
    rw [State.withStatus_status, if_neg (statusError_ne_done .range)]
    exact command_range hc (by simpa using hf)
  · cases he.symm.trans h
    rw [State.withStatus_status, if_neg (statusError_ne_done .lengthOvf)]
    exact execIpBuild_lengthOvf (s := s.withBuf m) hf hn
  · cases he.symm.trans h
  · cases he.symm.trans h
    have hr' : commandResult (s.withBuf m) c = some r := (commandResult_withBuf hm).trans hr
    rw [State.withStatus_status, if_pos rfl, command_done (s := s.withBuf m) hc (by simpa using hf) hn hr',
      storedBytes_withBuf]
    rfl

end

/-! ### A command run again -/

/-- A state that shares the parameters differs in the buffer, RESULT and STATUS at most. -/
theorem eq_updates_of_sameParams {s t : State} (h : SameParams s t) :
    t = ((s.withBuf t.buf).withResult t.result).withStatus t.status := by
  cases s
  cases t
  simpa [SameParams, State.withBuf, State.withResult, State.withStatus] using h

/-- Run on its own output, a command finds the span it reads as it was (a command that reads stores nothing),
and stores over its bytes the same bytes again. -/
theorem command_idempotent {c : Instr} {s t : State} (hc : isCommand c = true) (h : exec c s = .next t) :
    exec c t = .next t := by
  have hspan : readsSpan c = true →
      ∀ a, s.opOffset ≤ a → a < s.opOffset + s.opLength → Memory.read t.buf a = Memory.read s.buf a :=
    fun hr a ho _ => command_read_outside hc h (.inr (by rw [bytesStored_of_readsSpan hr]; exact ho))
  have hbuf : (if t.status = statusDone then Memory.writeSpan t.buf s.opOffset (storedBytes s c) else t.buf) =
      t.buf := by
    obtain ⟨hst, hb⟩ | ⟨hst, -⟩ := command_stored_or_error hc h
    · rw [if_pos hst, hb, Memory.writeSpan_idem]
    · rw [if_neg hst]
  have hagain : exec c (s.withBuf t.buf) = .next t := by
    rw [command_withBuf hspan hc h, hbuf]
    rfl
  calc exec c t
      = exec c ((s.withBuf t.buf).withResult t.result) := by
        conv_lhs => rw [eq_updates_of_sameParams (command_sameParams hc h)]
        exact command_withStatus hc _ t.status
    _ = .next t := by
        rw [command_withResult hc hagain, ite_self]
        rfl

end Sys2Proof.Machine

namespace Sys2Proof

open Sys2Proof.Machine

/-- Settles O19: the second write reaches another byte, so both bytes read as written last. -/
theorem bufferReadSeesTheLastWrite : Obligations.BufferReadSeesTheLastWrite := by
  intro s t u i j d e hij ht hu
  obtain ⟨hi, rfl⟩ := exec_bufWr_next ht
  obtain ⟨hj, rfl⟩ := exec_bufWr_next hu
  have hne : i.toNat ≠ j.toNat := BitVec.toNat_ne.mp hij
  constructor
  · refine exec_bufRd_of_read hi ?_
    rw [State.withBuf_buf, Memory.read_write_other _ _ hne, State.withBuf_buf, Memory.read_write_same]
  · exact exec_bufRd_of_read hj (Memory.read_write_same _ _ _)

/-- Settles O49, by what a command can leave in the buffer: its bytes from OFFSET on, or nothing after an error. -/
theorem commandFrame : Obligations.CommandFrame := by
  intro s t c hc h
  refine ⟨command_sameParams hc h, fun a ha => command_read_outside hc h ha, fun hst => ?_⟩
  obtain ⟨hdone, -⟩ | ⟨-, hbuf, hres⟩ := command_stored_or_error hc h
  · exact absurd hdone hst
  · exact ⟨hbuf, hres⟩

/-- Settles O50: over the other buffer the command ends the same way and stores the same bytes
(`command_withBuf`), which is all that stands in the span it stores. -/
theorem commandReadsOnlyItsSpan : Obligations.CommandReadsOnlyItsSpan := by
  intro s t m c hc hm h
  refine ⟨_, command_withBuf hm hc h, rfl, rfl, fun a hlo hhi hst => ?_⟩
  obtain ⟨hdone, hbuf⟩ | ⟨hne, -⟩ := command_stored_or_error hc h
  · have hin : s.opOffset ≤ a ∧ a < s.opOffset + (storedBytes s c).length := by
      rw [storedBytes_length]
      exact ⟨hlo, hhi⟩
    rw [State.withBuf_buf, if_pos hdone, hbuf, Memory.read_writeSpan, if_pos hin, Memory.read_writeSpan, if_pos hin]
  · exact absurd hst hne

/-- Settles O53: `command_idempotent`, from what a command reads of the buffer, RESULT and STATUS. -/
theorem commandsAreIdempotent : Obligations.CommandsAreIdempotent :=
  fun _ _ _ hc h => command_idempotent hc h

end Sys2Proof
end

section
/-! PROOF. Decoding and encoding (30_encoding.md R60 to R64): what each transaction of the encoder decodes to,
what a decoded transaction was, and which transactions and command words decode at all. -/

namespace Sys2Proof

open Sys2Proof.Laws

/-! ### Command words -/

/-- Every instruction's encoding has its row and, for a command, its word: the cases of Laws/PerInstr together. -/
theorem encodingRow (i : Instr) : EncodingRow.Statement i := by
  cases i with
  | csum => exact EncodingRow.csum
  | ipBuild => exact EncodingRow.ipBuild
  | tcpBuild => exact EncodingRow.tcpBuild
  | tcpCsum => exact EncodingRow.tcpCsum
  | segBuild => exact EncodingRow.segBuild
  | regRd r => exact EncodingRow.regRd r
  | regWr r d => exact EncodingRow.regWr r d
  | bufRd k => exact EncodingRow.bufRd k
  | bufWr k d => exact EncodingRow.bufWr k d

/-- A command word decodes to exactly the command whose word it is (R64). -/
theorem decodeCmd_eq_ok_iff {w : Word} {c : Instr} : decodeCmd w = .ok c ↔ EncodingRow.commandWord c = some w := by
  constructor
  · rw [decodeCmd_eq]
    intro h
    split_ifs at h with hw hw hw hw hw <;> cases h <;> exact congrArg some (BitVec.eq_of_toNat_eq hw.symm)
  · intro h
    have ⟨_, hword⟩ := encodingRow c
    exact (hword w h).2

/-- The words that decode to no command are the illegal ones (R64). -/
theorem decodeCmd_eq_error_iff {w : Word} :
    decodeCmd w = .error .illegalCommand ↔ legalCommandWord w = false := by
  have hlegal := legalCommandWord_iff w
  rw [decodeCmd_eq, ← Bool.not_eq_true, hlegal]
  split_ifs <;> simp <;> omega

/-- A word that decodes to no command raises illegalCommand, the only error of `decodeCmd`. -/
theorem decodeCmd_ok_or_error (w : Word) :
    (∃ c, decodeCmd w = .ok c) ∨ decodeCmd w = .error .illegalCommand := by
  rw [decodeCmd_eq]
  split_ifs <;> simp

/-- A command is carried by a write of its word to CMD (R62). -/
theorem encode_of_decodeCmd {w : Word} {c : Instr} (h : decodeCmd w = .ok c) : encode c = Tx.regWrite .cmd w := by
  have ⟨_, hword⟩ := encodingRow c
  exact (hword w (decodeCmd_eq_ok_iff.mp h)).1

theorem wf_of_decodeCmd {w : Word} {c : Instr} (h : decodeCmd w = .ok c) (n : Nat) : c.wf n = true := by
  have hw := decodeCmd_eq_ok_iff.mp h
  cases c with
  | csum | ipBuild | tcpBuild | tcpCsum | segBuild => rfl
  | regRd _ | regWr _ _ | bufRd _ | bufWr _ _ => cases hw

/-! ### The two levels of `decode` -/

/-- A register write to CMD with a legal word is that command (R62). -/
theorem decode_of_command {n : Nat} {t : Tx} {d : Word} {c : Instr} (h : decodeTx n t = .ok (.regWr .cmd d))
    (hc : decodeCmd d = .ok c) : decode n t = .ok c := by
  rw [decode, h]
  simp only [hc]

/-- Any other transaction is what R61 makes of it. -/
theorem decode_of_not_command {n : Nat} {t : Tx} {x : Except DecodeError Instr} (h : decodeTx n t = x)
    (hx : ∀ d, x = .ok (.regWr .cmd d) → decodeCmd d = .error .illegalCommand) : decode n t = x := by
  rw [decode, h]
  split
  case h_1 d => rw [hx d rfl]
  case h_2 => rfl

/-- Everything a transaction can decode to: a command, from a write to CMD, or what R61 makes of it. -/
theorem decode_cases (n : Nat) (t : Tx) :
    (∃ d c, decodeTx n t = .ok (.regWr .cmd d) ∧ decodeCmd d = .ok c ∧ decode n t = .ok c) ∨
      (decode n t = decodeTx n t ∧
        ∀ d, decodeTx n t = .ok (.regWr .cmd d) → decodeCmd d = .error .illegalCommand) := by
  by_cases hcmd : ∃ d c, decodeTx n t = .ok (.regWr .cmd d) ∧ decodeCmd d = .ok c
  · obtain ⟨d, c, h, hc⟩ := hcmd
    exact .inl ⟨d, c, h, hc, decode_of_command h hc⟩
  · have hill : ∀ d, decodeTx n t = .ok (.regWr .cmd d) → decodeCmd d = .error .illegalCommand := fun d hd =>
      (decodeCmd_ok_or_error d).resolve_left fun ⟨c, hc⟩ => hcmd ⟨d, c, hd, hc⟩
    exact .inr ⟨decode_of_not_command rfl hill, hill⟩

/-! ### The transactions of the encoder -/

/-- The slot of a slot's own address. -/
@[simp] theorem regOfAddr_addr (r : Reg) : regOfAddr r.addr = r := by
  have hidx : r.addr.extractLsb' 2 4 = r.index := by
    cases r with
    | reserved k => revert k; decide
    | _ => rfl
  rw [regOfAddr, hidx, Reg.ofIndex_index]

/-- A buffer index at its host address, `0x8000 + i` (R66). -/
theorem bufAddr_toNat (i : BufIndex) : (1#1 ++ i : Addr).toNat = 0x8000 + i.toNat := by
  show (1#1 ++ i).toNat = _
  rw [BitVec.toNat_append, ← Nat.shiftLeft_add_eq_or_of_lt i.isLt]
  rfl

@[simp] theorem bufIndexOfAddr_bufAddr (i : BufIndex) : bufIndexOfAddr (1#1 ++ i : Addr) = i := by
  apply BitVec.eq_of_toNat_eq
  have := i.isLt
  rw [bufIndexOfAddr, BitVec.extractLsb'_toNat, bufAddr_toNat, Nat.shiftRight_zero]
  omega

@[simp] theorem decodeTx_regRead (n : Nat) (r : Reg) : decodeTx n (Tx.regRead r) = .ok (.regRd r) := by
  rw [decodeTx, Tx.regRead, EncodingRow.txKind_reg]
  simp only [regOfAddr_addr]

@[simp] theorem decodeTx_regWrite (n : Nat) (r : Reg) (d : Word) :
    decodeTx n (Tx.regWrite r d) = .ok (.regWr r d) := by
  rw [decodeTx, Tx.regWrite, EncodingRow.txKind_reg]
  simp only [regOfAddr_addr]

section
variable {n : Nat} {i : BufIndex} (h : i.toNat < n)
include h

theorem decodeTx_bufRead : decodeTx n (Tx.bufRead i) = .ok (.bufRd i) := by
  rw [decodeTx, Tx.bufRead, EncodingRow.txKind_buf]
  simp only [bufIndexOfAddr_bufAddr, if_pos h]

theorem decodeTx_bufWrite (d : Word) : decodeTx n (Tx.bufWrite i d) = .ok (.bufWr i d) := by
  rw [decodeTx, Tx.bufWrite, EncodingRow.txKind_buf]
  simp only [bufIndexOfAddr_bufAddr, if_pos h]

end

/-- A command's encoding decodes to the command. -/
theorem decode_encode_command {c : Instr} (hc : Machine.isCommand c = true) (n : Nat) :
    decode n (encode c) = .ok c := by
  obtain ⟨w, hw⟩ : ∃ w, EncodingRow.commandWord c = some w := by
    cases c with
    | csum | ipBuild | tcpBuild | tcpCsum | segBuild => exact ⟨_, rfl⟩
    | regRd _ | regWr _ _ | bufRd _ | bufWr _ _ => cases hc
  have hdec := decodeCmd_eq_ok_iff.mpr hw
  rw [encode_of_decodeCmd hdec]
  exact decode_of_command (decodeTx_regWrite n .cmd w) hdec

/-- A register write that is no command decodes to itself. -/
theorem decode_regWrite {n : Nat} {r : Reg} {d : Word} (h : (Instr.regWr r d).wf n = true) :
    decode n (Tx.regWrite r d) = .ok (.regWr r d) := by
  refine decode_of_not_command (decodeTx_regWrite n r d) fun e he => decodeCmd_eq_error_iff.mpr ?_
  cases he
  simpa [Instr.wf] using h

theorem decode_encode {n : Nat} {i : Instr} (h : i.wf n = true) : decode n (encode i) = .ok i := by
  cases i with
  | csum | ipBuild | tcpBuild | tcpCsum | segBuild => exact decode_encode_command rfl n
  | regRd r => exact decode_of_not_command (decodeTx_regRead n r) fun d hd => by cases hd
  | regWr r d => exact decode_regWrite h
  | bufRd k => exact decode_of_not_command (decodeTx_bufRead (of_decide_eq_true h)) fun d hd => by cases hd
  | bufWr k d => exact decode_of_not_command (decodeTx_bufWrite (of_decide_eq_true h) d) fun e he => by cases he

/-- A transaction that R61 decodes is the encoding of its instruction, up to what stands on the bus in a read. -/
theorem encode_of_decodeTx {n : Nat} {t : Tx} {i : Instr} (h : decodeTx n t = .ok i) :
    (encode i).header = t.header ∧ (t.dir = .write → encode i = t) := by
  obtain ⟨dir, size, addr, data⟩ := t
  obtain ⟨rfl, r, rfl, ⟨rfl, rfl⟩ | ⟨rfl, rfl⟩⟩ | ⟨rfl, k, -, haddr, hdir⟩ := Machine.decodeTx_cases h
  · exact ⟨rfl, fun hw => by cases hw⟩
  · exact ⟨rfl, fun _ => rfl⟩
  · obtain rfl : addr = 1#1 ++ k := BitVec.eq_of_toNat_eq (haddr.trans (bufAddr_toNat k).symm)
    obtain ⟨rfl, rfl⟩ | ⟨rfl, rfl⟩ := hdir
    · exact ⟨rfl, fun hw => by cases hw⟩
    · exact ⟨rfl, fun _ => rfl⟩

/-- What R61 decodes is well formed unless it is a write of a legal word to CMD. -/
theorem wf_of_decodeTx {n : Nat} {t : Tx} {i : Instr} (h : decodeTx n t = .ok i)
    (hcmd : ∀ d, i = .regWr .cmd d → decodeCmd d = .error .illegalCommand) : i.wf n = true := by
  obtain ⟨-, r, -, ⟨-, rfl⟩ | ⟨-, rfl⟩⟩ | ⟨-, k, hk, -, ⟨-, rfl⟩ | ⟨-, rfl⟩⟩ := Machine.decodeTx_cases h
  · rfl
  · cases r with
    | cmd => simpa [Instr.wf] using decodeCmd_eq_error_iff.mp (hcmd _ rfl)
    | _ => rfl
  · exact decide_eq_true hk
  · exact decide_eq_true hk

/-! ### Rows of the table -/

/-- A header that matches a row has the row's direction and size bits, `hdr[18:16]`: every mask holds them. -/
theorem TxRow.dir_size_of_hits {r : TxRow} (hr : r ∈ txRows) {h : BitVec 19} (hit : r.hits h = true) :
    h &&& 0x70000#19 = r.pattern &&& 0x70000#19 := by
  have hmask : ∀ r ∈ txRows, r.mask &&& 0x70000#19 = 0x70000#19 := by decide
  rw [← eq_of_beq hit, BitVec.and_assoc, hmask r hr]

/-- Two rows differ in direction or size. -/
theorem txRow_eq_of_dir_size :
    ∀ r ∈ txRows, ∀ q ∈ txRows, r.pattern &&& 0x70000#19 = q.pattern &&& 0x70000#19 → r = q := by
  decide

/-! ### The field form, and the transactions that do not decode -/

theorem decodeTx_eq_decodeTxFields (n : Nat) (t : Tx) : decodeTx n t = Machine.decodeTxFields n t := by
  rw [decodeTx, txKind_eq, Machine.decodeTxFields]
  by_cases hreg : t.size = .word ∧ t.addr.extractLsb' 6 10 = 0#10 ∧ t.addr.extractLsb' 0 2 = 0#2
  · rw [if_pos hreg, if_pos hreg]
    cases t.dir <;> rfl
  · rw [if_neg hreg, if_neg hreg]
    by_cases hbuf : t.size = .byte ∧ t.addr.getLsbD 15 = true
    · obtain ⟨hsize, h15⟩ := hbuf
      obtain ⟨-, hnat, hidx⟩ := bufIndexOfAddr_eq t.addr h15
      rw [if_pos ⟨hsize, h15⟩, ← hidx, ← hnat]
      by_cases hk : (bufIndexOfAddr t.addr).toNat < n
      · rw [if_pos (⟨hsize, h15, hk⟩ : _ ∧ _ ∧ _)]
        simp only [if_pos hk]
        cases t.dir <;> rfl
      · rw [if_neg (not_and_of_not_right _ (not_and_of_not_right _ hk))]
        simp only [if_neg hk]
        cases t.dir <;> rfl
    · rw [if_neg hbuf, if_neg (mt (And.imp_right And.left) hbuf)]

/-- The address conditions of a register row, in numbers: aligned and below 0x40 (R61). -/
theorem regWindow_iff (a : Addr) :
    a.extractLsb' 6 10 = 0#10 ∧ a.extractLsb' 0 2 = 0#2 ↔ a.toNat < 0x40 ∧ a.toNat % 4 = 0 := by
  have := a.isLt
  simp only [← BitVec.toNat_inj, BitVec.extractLsb'_toNat, Nat.shiftRight_eq_div_pow, BitVec.toNat_ofNat]
  omega

/-- The address condition of a buffer row, in numbers: at 0x8000 or above (R61). -/
theorem bufWindow_iff (a : Addr) : a.getLsbD 15 = true ↔ 0x8000 ≤ a.toNat := by
  have := a.isLt
  rw [BitVec.getLsbD, Nat.testBit_eq_decide_div_mod_eq, decide_eq_true_iff]
  omega

/-- The transactions that are not on R61's list of BusErrors: an aligned 32-bit access below 0x40, or an 8-bit
access inside the buffer. -/
theorem badTx_eq_false_iff {n : Nat} {t : Tx} :
    Machine.badTx n t = false ↔
      (t.size = .word ∧ t.addr.toNat < 0x40 ∧ t.addr.toNat % 4 = 0) ∨
        (t.size = .byte ∧ 0x8000 ≤ t.addr.toNat ∧ t.addr.toNat - 0x8000 < n) := by
  obtain ⟨dir, size, addr, data⟩ := t
  cases size <;> simp [Machine.badTx] <;> omega

/-- A transaction on R61's list matches neither form. -/
theorem decodeTx_of_badTx {n : Nat} {t : Tx} (h : Machine.badTx n t = true) : decodeTx n t = .error .busError := by
  have hnot := mt badTx_eq_false_iff.mpr (ne_of_eq_of_ne h (by decide))
  rw [← regWindow_iff, ← bufWindow_iff] at hnot
  obtain ⟨hreg, hbuf⟩ := not_or.mp hnot
  rw [decodeTx_eq_decodeTxFields, Machine.decodeTxFields, if_neg hreg, if_neg hbuf]

theorem decodeTx_of_not_badTx {n : Nat} {t : Tx} (h : Machine.badTx n t = false) : ∃ i, decodeTx n t = .ok i := by
  have hok := badTx_eq_false_iff.mp h
  rw [← regWindow_iff, ← bufWindow_iff] at hok
  rw [decodeTx_eq_decodeTxFields, Machine.decodeTxFields]
  split_ifs with hreg hbuf
  · cases t.dir <;> exact ⟨_, rfl⟩
  · cases t.dir <;> exact ⟨_, rfl⟩
  · exact absurd hok (not_or.mpr ⟨hreg, hbuf⟩)

/-! ### The obligations -/

/-- Settles O6: `decode_encode`, by the instruction's constructors. -/
theorem decodeOfEncodeIsTheInstruction : Obligations.DecodeOfEncodeIsTheInstruction :=
  fun _ _ h => decode_encode h

/-- Settles O5: each command has one word (`decodeCmd_eq_ok_iff`), and the rest are illegal. -/
theorem fiveLegalCommandWords : Obligations.FiveLegalCommandWords := by
  intro w
  have only {c : Instr} {v : Word} (hv : EncodingRow.commandWord c = some v) : decodeCmd w = .ok c ↔ w = v := by
    rw [decodeCmd_eq_ok_iff, hv, Option.some_inj, eq_comm]
  refine ⟨only rfl, only rfl, only rfl, only rfl, only rfl, ?_⟩
  rw [decodeCmd_eq_error_iff]
  simp [legalCommandWord, and_assoc]

/-- Settles O7: the transaction of a command is the write of its word to CMD; any other decoded transaction has
the fields R61 reads (`decodeTx_cases`). -/
theorem encodeOfDecodeIsTheTransaction : Obligations.EncodeOfDecodeIsTheTransaction := by
  intro n t i h
  obtain ⟨d, c, hd, hc, hdec⟩ | ⟨hdec, hill⟩ := decode_cases n t
  · cases hdec.symm.trans h
    have henc : encode i = encode (.regWr .cmd d) := encode_of_decodeCmd hc
    rw [henc]
    exact ⟨wf_of_decodeCmd hc n, encode_of_decodeTx hd⟩
  · have hi : decodeTx n t = .ok i := hdec.symm.trans h
    exact ⟨wf_of_decodeTx hi fun d hd => hill d (hd ▸ hi), encode_of_decodeTx hi⟩

/-- Settles O8, by the rows' conditions on the fields (`txKind_eq`). -/
theorem tableDecodeIsFieldDecode : Obligations.TableDecodeIsFieldDecode := decodeTx_eq_decodeTxFields

/-- Settles O9: rows that match one header have its direction and size bits in common, and no two rows do. -/
theorem noHeaderMatchesTwoRows : Obligations.NoHeaderMatchesTwoRows := fun _ r q hr hq hitr hitq =>
  txRow_eq_of_dir_size r hr q hq ((TxRow.dir_size_of_hits hr hitr).symm.trans (TxRow.dir_size_of_hits hq hitq))

/-- Settles O10: transaction decoding fails exactly on the list, and the command level adds no error. -/
theorem badTransactionsAreBusErrors : Obligations.BadTransactionsAreBusErrors := by
  intro n t
  constructor
  · intro hbad
    have herr := decodeTx_of_badTx hbad
    exact decode_of_not_command herr fun d hd => by cases hd
  · intro hgood
    obtain ⟨i, hi⟩ := decodeTx_of_not_badTx hgood
    obtain ⟨_, c, -, -, hdec⟩ | ⟨hdec, -⟩ := decode_cases n t
    · exact ⟨c, hdec⟩
    · exact ⟨i, hdec.trans hi⟩

/-- Settles O4: each word, run through the decoder. -/
theorem sampleWordsDecode : Obligations.SampleWordsDecode := by
  unfold Obligations.SampleWordsDecode
  decide

end Sys2Proof
end

section
/-! PROOF. The operands of a command (30_encoding.md R63): between two states that agree on them it ends the same
way. -/

namespace Sys2Proof.Machine

/-- Two states that a command cannot tell apart: they agree on the buffer, the span it needs, LENGTH where IP_BUILD
checks it, the RESULT it computes and the bytes it stores (`command_cases`). -/
structure SameOperands (c : Instr) (s t : State) : Prop where
  bufBytes  : t.bufBytes = s.bufBytes
  buf       : t.buf = s.buf
  opOffset  : t.opOffset = s.opOffset
  spanBytes : spanBytes t c = spanBytes s c
  opLength  : c = .ipBuild → t.opLength = s.opLength
  result    : commandResult t c = commandResult s c
  stored    : storedBytes t c = storedBytes s c

/-- A change of the state that commutes with everything a command writes. -/
structure CommutesWithCommands (f : State → State) : Prop where
  withStatus : ∀ s v, f (s.withStatus v) = (f s).withStatus v
  withResult : ∀ s v, f (s.withResult v) = (f s).withResult v
  withBuf    : ∀ s m, f (s.withBuf m) = (f s).withBuf m

/-- A change that a command neither looks at nor overwrites may come before the command or after it. -/
theorem command_mapNext {c : Instr} {f : State → State} {s t : State} (hc : isCommand c = true)
    (hf : CommutesWithCommands f) (ht : t = f s) (hs : SameOperands c s t) : exec c t = mapNext f (exec c s) := by
  have hspan : t.opOffset + spanBytes t c = s.opOffset + spanBytes s c := by rw [hs.opOffset, hs.spanBytes]
  obtain ⟨hr, he⟩ | ⟨rfl, hr, hn, he⟩ | ⟨hr, hres, he⟩ | ⟨hr, hn, r, hres, he⟩ := command_cases hc s <;>
    rw [he, mapNext] <;> rw [← hspan, ← hs.bufBytes] at hr
  · rw [hf.withStatus, ← ht]
    exact command_range hc hr
  · rw [hf.withStatus, ← ht]
    exact execIpBuild_lengthOvf hr (hs.opLength rfl ▸ hn)
  · exact command_unwritten hc hr (hs.result.trans hres)
  · rw [hf.withStatus, hf.withResult, hf.withBuf, ← ht, ← hs.buf, ← hs.opOffset, ← hs.stored]
    exact command_done hc hr (fun h => hs.opLength h ▸ hn h) (hs.result.trans hres)

end Sys2Proof.Machine

namespace Sys2Proof

open Sys2Proof.Machine

/-- Settles O52: no operand of the command is a field of an unlisted register (R63), so `command_mapNext` applies;
LENGTH is unlisted only where nothing checks it. -/
theorem commandsReadOnlyListedOperands : Obligations.CommandsReadOnlyListedOperands := by
  intro s len src dst prt sq ack ctl idn
  refine ⟨?csum, ?ipBuild, ?tcpBuild, ?tcpCsum, ?segBuild⟩
  case csum | ipBuild | tcpCsum =>
    exact command_mapNext rfl ⟨fun _ _ => rfl, fun _ _ => rfl, fun _ _ => rfl⟩ rfl
      ⟨rfl, rfl, rfl, rfl, fun _ => rfl, rfl, rfl⟩
  case tcpBuild | segBuild =>
    exact command_mapNext rfl ⟨fun _ _ => rfl, fun _ _ => rfl, fun _ _ => rfl⟩ rfl
      ⟨rfl, rfl, rfl, rfl, nofun, rfl, rfl⟩

end Sys2Proof
end

section
/-! PROOF. Host scripts (30_encoding.md R66, R67): the headers of the transactions a line expands to, and what a
host program of them does, transaction by transaction. -/

namespace Sys2Proof

/-! ### Headers (R66) -/

/-- A register access has its row's pattern or-ed with the address for header (R61, R66). -/
theorem Tx.header_wordAccess (d : Dir) (a : Addr) (v : Word) :
    Tx.header { dir := d, size := .word, addr := a, data := v } =
      (d.bit ++ Size.word.code ++ 0#16) ||| a.setWidth 19 := by
  apply BitVec.eq_of_toNat_eq
  rw [Tx.header, BitVec.toNat_append, BitVec.toNat_or, BitVec.toNat_append (d.bit ++ Size.word.code),
    BitVec.toNat_setWidth_of_le (by decide)]
  simp

/-- A buffer access has its row's pattern plus the index for header (R61, R66). -/
theorem Tx.header_bufAccess (d : Dir) (i : BufIndex) (v : Word) :
    Tx.header { dir := d, size := .byte, addr := 1#1 ++ i, data := v } =
      (d.bit ++ Size.byte.code ++ 0x8000#16) + i.setWidth 19 := by
  apply BitVec.eq_of_toNat_eq
  have hi := i.isLt
  rw [Tx.header_toNat, bufAddr_toNat]
  cases d <;> simp [Dir.bit, Size.code] <;> omega

namespace Machine

/-! ### Running a host program (R158, R159) -/

section
variable {M : Host.Core} (s : M.State)

theorem coreRun_one : M.run 1 s = M.step s := by
  rw [Host.Core.run]
  cases M.step s <;> rfl

theorem coreRun_succ_of_next {s t : M.State} (h : M.step s = .next t) (k : Nat) : M.run (k + 1) s = M.run k t := by
  rw [Host.Core.run, h]

end

/-- The first transaction of a program is the next step, with the rest pending. -/
theorem step_withProgram_cons {s : State} {x : Tx} {i : Instr} (h : decode s.bufBytes x = .ok i) (xs : List Tx) :
    step (s.withProgram (x :: xs)) = exec i (s.withProgram xs) := by
  simp only [step, fetch, State.withProgram, List.map_cons, h]
  rfl

/-- A program that starts with a write of a register other than CMD stores that register first. -/
theorem step_regWrite {r : Reg} (hr : r ≠ .cmd) (d : Word) (s : State) (xs : List Tx) :
    step (s.withProgram (Tx.regWrite r d :: xs)) = .next ((s.writeReg r d).withProgram xs) := by
  have hdec : decode s.bufBytes (Tx.regWrite r d) = .ok (.regWr r d) :=
    decode_of_not_command (decodeTx_regWrite _ r d) fun e he => by
      cases he
      exact absurd rfl hr
  rw [step_withProgram_cons hdec, exec_regWr_of_ne_cmd hr]
  cases r <;> rfl

/-! ### The fields a register write loads (R63, R155) -/

/-- The mask of OFFSET keeps all the bits the register has. -/
theorem State.writeReg_offset_eq (s : State) (d : Word) :
    s.writeReg .offset d = { s with offset := d.setWidth 16 } := by
  have hmask : (d &&& 0x0000FFFF#32).setWidth 16 = d.setWidth 16 := by
    rw [BitVec.setWidth_and]
    exact BitVec.and_allOnes
  exact congrArg (fun o => { s with offset := o }) hmask

section
variable (s : State) (d : Word)

theorem State.writeReg_ports_opSport : (s.writeReg .ports d).opSport = d.extractLsb' 16 16 := by
  rw [State.opSport, State.writeReg_ports, if_pos rfl, BitVec.extractLsb'_and]
  exact BitVec.and_allOnes

theorem State.writeReg_ports_opDport : (s.writeReg .ports d).opDport = d.extractLsb' 0 16 := by
  rw [State.opDport, State.writeReg_ports, if_pos rfl, BitVec.extractLsb'_and]
  exact BitVec.and_allOnes

theorem State.writeReg_tcpctl_opSyn : (s.writeReg .tcpctl d).opSyn = d.extractLsb' 16 1 := by
  rw [State.opSyn, State.writeReg_tcpctl, if_pos rfl, BitVec.extractLsb'_and]
  exact BitVec.and_allOnes

theorem State.writeReg_tcpctl_opAck : (s.writeReg .tcpctl d).opAck = d.extractLsb' 17 1 := by
  rw [State.opAck, State.writeReg_tcpctl, if_pos rfl, BitVec.extractLsb'_and]
  exact BitVec.and_allOnes

theorem State.writeReg_tcpctl_opWindow : (s.writeReg .tcpctl d).opWindow = d.extractLsb' 0 16 := by
  rw [State.opWindow, State.writeReg_tcpctl, if_pos rfl, BitVec.extractLsb'_and]
  exact BitVec.and_allOnes

end

/-- The word that `ports` writes holds its two operands (R67). -/
theorem ports_word (sp dp : Half) :
    (sp ++ dp : Word).extractLsb' 16 16 = sp ∧ (sp ++ dp : Word).extractLsb' 0 16 = dp := by
  constructor
  · exact (BitVec.extractLsb'_append_eq_of_le (by decide)).trans BitVec.extractLsb'_eq_self
  · exact (BitVec.extractLsb'_append_eq_of_add_le (by decide)).trans BitVec.extractLsb'_eq_self

/-- The word that `tcpctl` writes holds its three operands (R67). -/
theorem tcpctl_word (ack syn : BitVec 1) (win : Half) :
    (0#14 ++ ack ++ syn ++ win : Word).extractLsb' 16 1 = syn ∧
      (0#14 ++ ack ++ syn ++ win : Word).extractLsb' 17 1 = ack ∧
      (0#14 ++ ack ++ syn ++ win : Word).extractLsb' 0 16 = win := by
  refine ⟨?_, ?_, ?_⟩
  · exact (BitVec.extractLsb'_append_eq_of_le (by decide)).trans
      ((BitVec.extractLsb'_append_eq_of_add_le (by decide)).trans BitVec.extractLsb'_eq_self)
  · exact (BitVec.extractLsb'_append_eq_of_le (by decide)).trans
      ((BitVec.extractLsb'_append_eq_of_le (by decide)).trans
        ((BitVec.extractLsb'_append_eq_of_add_le (by decide)).trans BitVec.extractLsb'_eq_self))
  · exact (BitVec.extractLsb'_append_eq_of_add_le (by decide)).trans BitVec.extractLsb'_eq_self

/-! ### The three pseudo-instructions -/

/-- The program of `segbuild o`, run to its end: OFFSET is written, then SEG_BUILD runs. -/
theorem run_segbuild (s : State) (o : Word) :
    Host.Core.run Sys2Proof.core 2 (s.withProgram [Tx.regWrite .offset o, encode .segBuild]) =
      exec .segBuild { s with input := [], offset := o.setWidth 16 } := by
  have hwrite := coreRun_succ_of_next (M := Sys2Proof.core)
    (step_regWrite (by decide : Reg.offset ≠ .cmd) o s [encode .segBuild]) 1
  have hlast := coreRun_one (M := Sys2Proof.core) ((s.writeReg .offset o).withProgram [encode .segBuild])
  have hcommand := step_withProgram_cons (s := s.writeReg .offset o) (decode_encode_command (c := .segBuild) rfl _) []
  refine hwrite.trans (hlast.trans (hcommand.trans ?_))
  rw [State.writeReg_offset_eq]
  rfl

theorem step_ports (s : State) {sp dp : Nat} (hsp : sp ≤ 0xFFFF) (hdp : dp ≤ 0xFFFF) :
    ∃ ts t, (ScriptLine.ports sp dp).expand = some ts ∧ step (s.withProgram ts) = .next t ∧
      t.opSport.toNat = sp ∧ t.opDport.toNat = dp := by
  obtain ⟨hs, hd⟩ := ports_word (BitVec.ofNat 16 sp) (BitVec.ofNat 16 dp)
  rw [← State.writeReg_ports_opSport s] at hs
  rw [← State.writeReg_ports_opDport s] at hd
  exact ⟨_, _, if_pos ⟨hsp, hdp⟩, step_regWrite (by decide) _ s [],
    (congrArg BitVec.toNat hs).trans (Nat.mod_eq_of_lt (by omega)),
    (congrArg BitVec.toNat hd).trans (Nat.mod_eq_of_lt (by omega))⟩

theorem step_tcpctl (s : State) {syn ack win : Nat} (hsyn : syn ≤ 1) (hack : ack ≤ 1) (hwin : win ≤ 0xFFFF) :
    ∃ ts t, (ScriptLine.tcpctl syn ack win).expand = some ts ∧ step (s.withProgram ts) = .next t ∧
      t.opSyn.toNat = syn ∧ t.opAck.toNat = ack ∧ t.opWindow.toNat = win := by
  obtain ⟨hs, ha, hw⟩ := tcpctl_word (BitVec.ofNat 1 ack) (BitVec.ofNat 1 syn) (BitVec.ofNat 16 win)
  rw [← State.writeReg_tcpctl_opSyn s] at hs
  rw [← State.writeReg_tcpctl_opAck s] at ha
  rw [← State.writeReg_tcpctl_opWindow s] at hw
  exact ⟨_, _, if_pos ⟨hsyn, hack, hwin⟩, step_regWrite (by decide) _ s [],
    (congrArg BitVec.toNat hs).trans (Nat.mod_eq_of_lt (by omega)),
    (congrArg BitVec.toNat ha).trans (Nat.mod_eq_of_lt (by omega)),
    (congrArg BitVec.toNat hw).trans (Nat.mod_eq_of_lt (by omega))⟩

end Machine

open Sys2Proof.Machine

/-- Settles O58: a register access has its direction, size and address for header, and each command's word
decodes to it. -/
theorem scriptLinesHaveTheirHeaders : Obligations.ScriptLinesHaveTheirHeaders := by
  refine ⟨fun r v => ⟨_, rfl, Tx.header_wordAccess .write r.addr v, rfl⟩,
    fun r => ⟨_, rfl, Tx.header_wordAccess .read r.addr 0⟩,
    fun a v => ⟨_, rfl, Tx.header_wordAccess .write a v, rfl⟩,
    fun a => ⟨_, rfl, Tx.header_wordAccess .read a 0⟩,
    fun o b => ⟨_, rfl, Tx.header_bufAccess .write o (b.setWidth 32), rfl⟩,
    fun o => ⟨_, rfl, Tx.header_bufAccess .read o 0⟩, fun c => ?_⟩
  cases c <;> exact ⟨_, rfl, by decide, by decide⟩

/-- Settles O59: a pseudo-instruction's transactions run one by one (`step_withProgram_cons`), and the word of a
register write holds the operands it was put together from. -/
theorem pseudoInstructionsRun : Obligations.PseudoInstructionsRun :=
  ⟨fun s o => ⟨_, rfl, run_segbuild s o⟩, fun s _ _ => step_ports s, fun s _ _ _ => step_tcpctl s,
    fun _ _ h => if_neg (by omega), fun _ _ _ h => if_neg (by omega)⟩

end Sys2Proof
end

section
/-! PROOF. The fold (40_checksum.md R82, R84): it depends on whether the accumulator is zero and on its residue
modulo 0xFFFF, and on nothing else; the loop, the two 32-bit passes and the fold after every word follow. -/

namespace Sys2Proof.Machine

/-! ### One pass -/

/-- A pass keeps the residue, since 2^16 is 1 modulo 0xFFFF. -/
theorem foldPass_modEq (a : Nat) : foldPass a ≡ a [MOD 0xFFFF] := by
  unfold foldPass Nat.ModEq
  omega

theorem foldPass_eq_zero_iff {a : Nat} : foldPass a = 0 ↔ a = 0 := by
  unfold foldPass
  omega

theorem foldPass_lt {a : Nat} (h : 2 ^ 16 ≤ a) : foldPass a < a := by
  unfold foldPass
  omega

theorem foldPass_of_lt {a : Nat} (h : a < 2 ^ 16) : foldPass a = a := by
  unfold foldPass
  omega

theorem foldPass_foldPass_lt {a : Nat} (h : a < 2 ^ 32) : foldPass (foldPass a) < 2 ^ 16 := by
  unfold foldPass
  omega

/-! ### The closed form -/

theorem foldClosed_of_lt {a : Nat} (h : a < 2 ^ 16) : foldClosed a = a := by
  unfold foldClosed
  split <;> omega

theorem foldClosed_lt (a : Nat) : foldClosed a < 2 ^ 16 := by
  unfold foldClosed
  split <;> omega

theorem foldClosed_eq_zero_iff {a : Nat} : foldClosed a = 0 ↔ a = 0 := by
  unfold foldClosed
  split <;> omega

theorem foldClosed_modEq (a : Nat) : foldClosed a ≡ a [MOD 0xFFFF] := by
  unfold foldClosed Nat.ModEq
  split <;> omega

/-- Zero or not, and the residue, are all that the closed form sees. -/
theorem foldClosed_congr {a b : Nat} (hz : a = 0 ↔ b = 0) (hm : a ≡ b [MOD 0xFFFF]) :
    foldClosed a = foldClosed b := by
  unfold Nat.ModEq at hm
  unfold foldClosed
  split <;> split <;> omega

theorem foldClosed_foldPass (a : Nat) : foldClosed (foldPass a) = foldClosed a :=
  foldClosed_congr foldPass_eq_zero_iff (foldPass_modEq a)

/-- The loop ends in the closed form: each pass lowers an accumulator above 16 bits and keeps its closed form. -/
theorem foldLoop_eq_foldClosed {k a : Nat} (h : a ≤ k) : foldLoop k a = foldClosed a := by
  induction k generalizing a with
  | zero =>
    obtain rfl : a = 0 := by omega
    rfl
  | succ k ih =>
    rw [foldLoop]
    split_ifs with hlow
    · exact (foldClosed_of_lt (by omega)).symm
    · have hdrop : foldPass a < a := foldPass_lt (by omega)
      rw [ih (by omega), foldClosed_foldPass]

/-! ### FOLD -/

theorem toNat_fold (a : Nat) : (fold a).toNat = foldClosed a := by
  rw [fold, foldLoop_eq_foldClosed le_rfl, BitVec.toNat_ofNat, Nat.mod_eq_of_lt (foldClosed_lt a)]

theorem toNat_fold_modEq (a : Nat) : (fold a).toNat ≡ a [MOD 0xFFFF] := by
  rw [toNat_fold]
  exact foldClosed_modEq a

theorem toNat_fold_eq_zero_iff {a : Nat} : (fold a).toNat = 0 ↔ a = 0 := by
  rw [toNat_fold, foldClosed_eq_zero_iff]

theorem fold_congr {a b : Nat} (hz : a = 0 ↔ b = 0) (hm : a ≡ b [MOD 0xFFFF]) : fold a = fold b :=
  BitVec.eq_of_toNat_eq (by rw [toNat_fold, toNat_fold, foldClosed_congr hz hm])

/-- A value of 16 bits is folded already. -/
@[simp] theorem fold_toNat (v : Half) : fold v.toNat = v :=
  BitVec.eq_of_toNat_eq (by rw [toNat_fold, foldClosed_of_lt v.isLt])

theorem fold_eq_zero_iff {a : Nat} : fold a = 0 ↔ a = 0 := by
  rw [← toNat_fold_eq_zero_iff, BitVec.toNat_eq]
  rfl

/-- A fold before an addition changes nothing after the next fold (R84). -/
theorem fold_toNat_fold_add (a b : Nat) : fold ((fold a).toNat + b) = fold (a + b) := by
  refine fold_congr ?_ ((toNat_fold_modEq a).add_right b)
  have hz := toNat_fold_eq_zero_iff (a := a)
  omega

/-- Adding all ones changes a sum only when it is zero (R92). -/
theorem fold_add_ones {a : Nat} (h : a ≠ 0) : fold (a + 0xFFFF) = fold a :=
  fold_congr (by omega) (by simp [Nat.ModEq])

/-- A sum and the complement of its fold give negative zero (R90, R91). -/
theorem fold_add_not_fold (a : Nat) : fold (a + (~~~ fold a).toNat) = 0xFFFF#16 := by
  have hcompl : (fold a).toNat + (~~~ fold a).toNat = (0xFFFF#16).toNat := by
    have hlt := (fold a).isLt
    rw [BitVec.toNat_not]
    exact Nat.add_sub_of_le (by omega)
  rw [← fold_toNat_fold_add, hcompl, fold_toNat]

/-! ### Two passes on 32 bits -/

theorem fold_toNat_eq_two_passes {a : Nat} (h : a < 2 ^ 32) : (fold a).toNat = foldPass (foldPass a) := by
  rw [toNat_fold, ← foldClosed_foldPass, ← foldClosed_foldPass, foldClosed_of_lt (foldPass_foldPass_lt h)]

theorem toNat_foldPass32 (a : Word) : (foldPass32 a).toNat = foldPass a.toNat := by
  have ha := a.isLt
  simp only [foldPass32, foldPass, BitVec.toNat_add, BitVec.toNat_setWidth, BitVec.extractLsb'_toNat,
    Nat.shiftRight_eq_div_pow, Nat.pow_zero, Nat.div_one]
  simp (disch := omega) only [Nat.mod_eq_of_lt (a := _ / _), Nat.mod_eq_of_lt (b := 2 ^ 32)]

/-- The test of the loop never matters: a pass keeps what it would not be applied to. -/
theorem toNat_ite_foldPass32 (a : Word) :
    (if a.extractLsb' 16 16 = 0#16 then a else foldPass32 a).toNat = foldPass a.toNat := by
  split_ifs with hlow
  · have hdiv : a.toNat / 2 ^ 16 % 2 ^ 16 = 0 := by
      simpa [Nat.shiftRight_eq_div_pow] using congrArg BitVec.toNat hlow
    have ha := a.isLt
    exact (foldPass_of_lt (by omega)).symm
  · exact toNat_foldPass32 a

theorem fold32_ofNat {a : Nat} (h : a < 2 ^ 32) : fold32 (BitVec.ofNat 32 a) = fold a := by
  apply BitVec.eq_of_toNat_eq
  have hlow := foldPass_foldPass_lt h
  rw [fold_toNat_eq_two_passes h, fold32, BitVec.extractLsb'_toNat, toNat_ite_foldPass32, toNat_ite_foldPass32,
    BitVec.toNat_ofNat, Nat.mod_eq_of_lt h, Nat.shiftRight_zero, Nat.mod_eq_of_lt hlow]

/-! ### Sums of words -/

theorem sumWords_eq_sum (ws : List Half) : sumWords ws = (ws.map BitVec.toNat).sum := by
  induction ws with
  | nil => rfl
  | cons w ws ih => rw [sumWords, ih, List.map_cons, List.sum_cons]

theorem sumWords_append (ws vs : List Half) : sumWords (ws ++ vs) = sumWords ws + sumWords vs := by
  simp only [sumWords_eq_sum, List.map_append, List.sum_append]

theorem sumWords_perm {ws vs : List Half} (h : ws.Perm vs) : sumWords ws = sumWords vs := by
  rw [sumWords_eq_sum, sumWords_eq_sum, (h.map BitVec.toNat).sum_eq]

theorem sumWords_le (ws : List Half) : sumWords ws ≤ 0xFFFF * ws.length := by
  induction ws with
  | nil => simp [sumWords]
  | cons w ws ih =>
    have hw := w.isLt
    rw [sumWords, List.length_cons]
    omega

/-- The 32-bit accumulator holds the sum modulo 2^32. -/
theorem toNat_accumulate32 (acc : Word) (ws : List Half) :
    (accumulate32 acc ws).toNat = (acc.toNat + sumWords ws) % 2 ^ 32 := by
  induction ws generalizing acc with
  | nil => rw [accumulate32, sumWords, Nat.add_zero, Nat.mod_eq_of_lt acc.isLt]
  | cons w ws ih =>
    have hw : w.toNat < 2 ^ 32 := by have := w.isLt; omega
    rw [accumulate32, ih, BitVec.toNat_add, BitVec.toNat_setWidth, Nat.mod_eq_of_lt hw, Nat.mod_add_mod,
      sumWords, Nat.add_assoc]

theorem toNat_accumulate32_zero {ws : List Half} (h : sumWords ws < 2 ^ 32) :
    (accumulate32 0 ws).toNat = sumWords ws := by
  rw [toNat_accumulate32]
  simpa using Nat.mod_eq_of_lt h

/-- Folding after every word is folding once at the end (R84). -/
theorem foldEach_toNat (v : Half) (ws : List Half) : foldEach v.toNat ws = (fold (v.toNat + sumWords ws)).toNat := by
  induction ws generalizing v with
  | nil => rw [foldEach, sumWords, Nat.add_zero, fold_toNat]
  | cons w ws ih => rw [foldEach, ih, fold_toNat_fold_add, sumWords, Nat.add_assoc]

end Sys2Proof.Machine

namespace Sys2Proof

open Sys2Proof.Machine

/-- Settles O21: the loop keeps the closed form (`foldLoop_eq_foldClosed`), and a sum does not see the order. -/
theorem foldHasTheClosedForm : Obligations.FoldHasTheClosedForm :=
  ⟨toNat_fold, fun _ ha => ⟨fold_toNat_eq_two_passes ha, fold32_ofNat ha⟩,
    fun _ _ h => congrArg fold (sumWords_perm h)⟩

end Sys2Proof
end

section
/-! PROOF. The checksum of a byte sequence (40_checksum.md R81 to R94): how its words follow from its bytes, what
a word put at an even position adds to the sum, and the little-endian reading. -/

namespace Sys2Proof.Machine

/-! ### Two bytes and their word -/

theorem toNat_ofBytes16 (a b : Byte) : (ofBytes16 a b).toNat = 256 * a.toNat + b.toNat := by
  rw [ofBytes16, BitVec.toNat_append, ← Nat.shiftLeft_add_eq_or_of_lt b.isLt, Nat.shiftLeft_eq, Nat.mul_comm]

theorem toNat_hiByte (v : Half) : (hiByte v).toNat = v.toNat / 256 := by
  have hv := v.isLt
  rw [hiByte, BitVec.extractLsb'_toNat, Nat.shiftRight_eq_div_pow]
  omega

theorem toNat_loByte (v : Half) : (loByte v).toNat = v.toNat % 256 := by
  rw [loByte, BitVec.extractLsb'_toNat, Nat.shiftRight_zero]

@[simp] theorem hiByte_ofBytes16 (a b : Byte) : hiByte (ofBytes16 a b) = a := by
  have hb := b.isLt
  apply BitVec.eq_of_toNat_eq
  rw [toNat_hiByte, toNat_ofBytes16]
  omega

@[simp] theorem loByte_ofBytes16 (a b : Byte) : loByte (ofBytes16 a b) = b := by
  have hb := b.isLt
  apply BitVec.eq_of_toNat_eq
  rw [toNat_loByte, toNat_ofBytes16]
  omega

@[simp] theorem ofBytes16_hiByte_loByte (v : Half) : ofBytes16 (hiByte v) (loByte v) = v := by
  apply BitVec.eq_of_toNat_eq
  rw [toNat_ofBytes16, toNat_hiByte, toNat_loByte, Nat.div_add_mod]

theorem toNat_ofBytes16_eq_zero_iff {a b : Byte} : (ofBytes16 a b).toNat = 0 ↔ a = 0 ∧ b = 0 := by
  rw [toNat_ofBytes16, BitVec.toNat_eq, BitVec.toNat_eq]
  simp

/-! ### The words of a byte sequence -/

theorem wordsOf_length (s : List Byte) : (wordsOf s).length = (s.length + 1) / 2 := by
  induction s using wordsOf.induct with
  | case1 => rfl
  | case2 b => simp [wordsOf]
  | case3 a b rest ih => simp only [wordsOf, List.length_cons, ih]; omega

/-- Words are formed from the first byte on, so a sequence of whole words may be cut off in front. -/
theorem wordsOf_append_of_even {s : List Byte} (h : s.length % 2 = 0) (t : List Byte) :
    wordsOf (s ++ t) = wordsOf s ++ wordsOf t := by
  induction s using wordsOf.induct with
  | case1 => rfl
  | case2 b => simp at h
  | case3 a b rest ih =>
    have hrest : rest.length % 2 = 0 := by simp only [List.length_cons] at h; omega
    simp only [List.cons_append, wordsOf, ih hrest]

/-- The pad byte of an odd sequence is a zero byte after it (R89). -/
theorem wordsOf_append_zero_of_odd {s : List Byte} (h : s.length % 2 = 1) : wordsOf (s ++ [0]) = wordsOf s := by
  induction s using wordsOf.induct with
  | case1 => simp at h
  | case2 b => rfl
  | case3 a b rest ih =>
    have hrest : rest.length % 2 = 1 := by simp only [List.length_cons] at h; omega
    simp only [List.cons_append, wordsOf, ih hrest]

theorem wordsOf_be16_append (c : Half) (t : List Byte) : wordsOf (be16 c ++ t) = c :: wordsOf t := by
  simp only [be16, List.cons_append, List.nil_append, wordsOf, ofBytes16_hiByte_loByte]

theorem sumWords_wordsOf_le (s : List Byte) : sumWords (wordsOf s) ≤ 0xFFFF * ((s.length + 1) / 2) :=
  wordsOf_length s ▸ sumWords_le (wordsOf s)

theorem sumWords_wordsOf_eq_zero_iff {s : List Byte} : sumWords (wordsOf s) = 0 ↔ ∀ b ∈ s, b = 0 := by
  induction s using wordsOf.induct with
  | case1 => simp [wordsOf, sumWords]
  | case2 b => simp [wordsOf, sumWords, toNat_ofBytes16_eq_zero_iff]
  | case3 a b rest ih => simp [wordsOf, sumWords, ih, toNat_ofBytes16_eq_zero_iff, and_assoc]

/-- The sum with a whole word between an even sequence and any other. -/
theorem sumWords_wordsOf_insert {s : List Byte} (h : s.length % 2 = 0) (c : Half) (t : List Byte) :
    sumWords (wordsOf (s ++ (be16 c ++ t))) = sumWords (wordsOf s) + sumWords (wordsOf t) + c.toNat := by
  rw [wordsOf_append_of_even h, wordsOf_be16_append, sumWords_append, sumWords]
  omega

/-! ### A word put at an even position -/

theorem putBe16_eq_append {s : List Byte} {p : Nat} (h : p + 1 < s.length) (c : Half) :
    putBe16 s p c = s.take p ++ (be16 c ++ s.drop (p + 2)) := by
  induction s generalizing p with
  | nil => simp at h
  | cons a s ih =>
    cases p with
    | zero =>
      obtain ⟨b, rest, rfl⟩ := List.exists_cons_of_length_pos (l := s) (by simpa using h)
      rfl
    | succ p => simpa [putBe16] using ih (p := p) (by simpa using h)

theorem putBe16_zero_of_zero {s : List Byte} {p : Nat} (h0 : s[p]? = some 0) (h1 : s[p + 1]? = some 0) :
    putBe16 s p 0 = s := by
  obtain ⟨hp, h0⟩ := List.getElem?_eq_some_iff.mp h0
  obtain ⟨hp1, h1⟩ := List.getElem?_eq_some_iff.mp h1
  have hset : s.set p 0 = s := by rw [← h0, List.set_getElem_self]
  have hset1 : s.set (p + 1) 0 = s := by rw [← h1, List.set_getElem_self]
  calc putBe16 s p 0 = (s.set p 0).set (p + 1) 0 := rfl
    _ = s := by rw [hset, hset1]

/-- The word at an even position adds its value to the sum with a zero word there. -/
theorem sumWords_wordsOf_putBe16 {s : List Byte} {p : Nat} (hp : p % 2 = 0) (h : p + 1 < s.length) (c : Half) :
    sumWords (wordsOf (putBe16 s p c)) = sumWords (wordsOf (putBe16 s p 0)) + c.toNat := by
  have heven : (s.take p).length % 2 = 0 := by rw [List.length_take]; omega
  rw [putBe16_eq_append h, putBe16_eq_append h, sumWords_wordsOf_insert heven, sumWords_wordsOf_insert heven]
  rfl

/-! ### The sum and the checksum -/

theorem ocsum_eq_zero_iff {s : List Byte} : ocsum s = 0 ↔ ∀ b ∈ s, b = 0 := by
  rw [ocsum, fold_eq_zero_iff, sumWords_wordsOf_eq_zero_iff]

theorem icsum_eq_ones_iff {s : List Byte} : icsum s = 0xFFFF#16 ↔ ocsum s = 0 := by
  rw [icsum, BitVec.not_eq_comm]
  rfl

theorem icsum_eq_zero_iff {s : List Byte} : icsum s = 0 ↔ ocsum s = 0xFFFF#16 := by
  rw [icsum, BitVec.not_eq_comm]
  rfl

/-- A sequence whose sum is that of another with the other's checksum added sums to negative zero. -/
theorem ocsum_of_checksum_added {s t : List Byte}
    (h : sumWords (wordsOf t) = sumWords (wordsOf s) + (icsum s).toNat) : ocsum t = 0xFFFF#16 := by
  rw [ocsum, h, icsum, ocsum, fold_add_not_fold]

/-- Whole words at even positions may change places: the sum has the same terms (R93). -/
theorem ocsum_swap_words {pre mid : List Byte} (hpre : pre.length % 2 = 0) (hmid : mid.length % 2 = 0)
    (post : List Byte) (a b c d : Byte) :
    ocsum (pre ++ [a, b] ++ mid ++ [c, d] ++ post) = ocsum (pre ++ [c, d] ++ mid ++ [a, b] ++ post) := by
  have hsum (a b c d : Byte) : sumWords (wordsOf (pre ++ [a, b] ++ mid ++ [c, d] ++ post)) =
      sumWords (wordsOf pre) + (ofBytes16 a b).toNat + sumWords (wordsOf mid) + (ofBytes16 c d).toNat
        + sumWords (wordsOf post) := by
    simp only [List.append_assoc, List.cons_append, List.nil_append, wordsOf_append_of_even hpre,
      wordsOf_append_of_even hmid, wordsOf, sumWords_append, sumWords]
    omega
  rw [ocsum, ocsum, hsum, hsum]
  congr 1
  omega

/-- A 32-bit accumulator computes the checksum of every sequence whose sum it holds. -/
theorem icsum32_eq_icsum {s : List Byte} (h : sumWords (wordsOf s) < 2 ^ 32) : icsum32 s = icsum s := by
  have hacc : accumulate32 0 (wordsOf s) = BitVec.ofNat 32 (sumWords (wordsOf s)) :=
    BitVec.eq_of_toNat_eq (by rw [toNat_accumulate32_zero h, BitVec.toNat_ofNat, Nat.mod_eq_of_lt h])
  rw [icsum32, hacc, fold32_ofNat h, icsum, ocsum]

/-! ### The little-endian reading -/

theorem toNat_swap16 (v : Half) : (swap16 v).toNat = 256 * (v.toNat % 256) + v.toNat / 256 := by
  rw [swap16, toNat_ofBytes16, toNat_loByte, toNat_hiByte]

/-- Swapping the bytes of a word is multiplying it by 256 modulo 0xFFFF. -/
theorem toNat_swap16_modEq (v : Half) : (swap16 v).toNat ≡ 256 * v.toNat [MOD 0xFFFF] := by
  rw [toNat_swap16, Nat.ModEq]
  omega

theorem toNat_swap16_eq_zero_iff {v : Half} : (swap16 v).toNat = 0 ↔ v.toNat = 0 := by
  rw [toNat_swap16]
  omega

theorem swap16_ofBytes16 (a b : Byte) : swap16 (ofBytes16 a b) = ofBytes16 b a := by
  rw [swap16, hiByte_ofBytes16, loByte_ofBytes16]

theorem swap16_not (v : Half) : swap16 (~~~ v) = ~~~ swap16 v := by
  have hv := v.isLt
  apply BitVec.eq_of_toNat_eq
  rw [toNat_swap16, BitVec.toNat_not, BitVec.toNat_not, toNat_swap16]
  omega

theorem wordsOfLE_eq_map (s : List Byte) : wordsOfLE s = (wordsOf s).map swap16 := by
  induction s using wordsOf.induct with
  | case1 => rfl
  | case2 b => rw [wordsOfLE, wordsOf, List.map_singleton, swap16_ofBytes16]
  | case3 a b rest ih => rw [wordsOfLE, wordsOf, List.map_cons, swap16_ofBytes16, ih]

theorem sumWords_map_swap16_modEq (ws : List Half) :
    sumWords (ws.map swap16) ≡ 256 * sumWords ws [MOD 0xFFFF] := by
  induction ws with
  | nil => rfl
  | cons w ws ih =>
    rw [List.map_cons, sumWords, sumWords, Nat.mul_add]
    exact (toNat_swap16_modEq w).add ih

theorem sumWords_map_swap16_eq_zero_iff {ws : List Half} : sumWords (ws.map swap16) = 0 ↔ sumWords ws = 0 := by
  induction ws with
  | nil => rfl
  | cons w ws ih =>
    rw [List.map_cons, sumWords, sumWords, Nat.add_eq_zero_iff, Nat.add_eq_zero_iff, toNat_swap16_eq_zero_iff, ih]

/-- Folding commutes with the byte swap: both sides are 256 times the sum modulo 0xFFFF (R94). -/
theorem fold_sumWords_map_swap16 (ws : List Half) :
    fold (sumWords (ws.map swap16)) = swap16 (fold (sumWords ws)) := by
  rw [← fold_toNat (swap16 _)]
  refine fold_congr ?zero ?residue
  case zero => rw [sumWords_map_swap16_eq_zero_iff, toNat_swap16_eq_zero_iff, toNat_fold_eq_zero_iff]
  case residue =>
    calc sumWords (ws.map swap16)
        ≡ 256 * sumWords ws [MOD 0xFFFF] := sumWords_map_swap16_modEq ws
      _ ≡ 256 * (fold (sumWords ws)).toNat [MOD 0xFFFF] := (toNat_fold_modEq _).symm.mul_left 256
      _ ≡ (swap16 (fold (sumWords ws))).toNat [MOD 0xFFFF] := (toNat_swap16_modEq _).symm

theorem icsumLE_eq_swap16 (s : List Byte) : icsumLE s = swap16 (icsum s) := by
  rw [icsumLE, wordsOfLE_eq_map, fold_sumWords_map_swap16, icsum, ocsum, swap16_not]

end Sys2Proof.Machine

namespace Sys2Proof

open Sys2Proof.Machine

/-- Settles O22: every two bytes add at most 0xFFFF, so the sum stays below 2^32. -/
theorem accumulatorHoldsTheSum : Obligations.AccumulatorHoldsTheSum := by
  refine ⟨fun s hs => ?_, fun s hs => ?_, fun ws => ?_⟩
  · have hsum := sumWords_wordsOf_le s
    omega
  · have hsum := sumWords_wordsOf_le s
    have hbound : sumWords (wordsOf s) ≤ 2147844090 := by omega
    have hfits : sumWords (wordsOf s) < 2 ^ 32 := by omega
    exact ⟨hbound, toNat_accumulate32_zero hfits, icsum32_eq_icsum hfits⟩
  · simpa using foldEach_toNat 0 ws

/-- Settles O24: a fold is 0 only on 0, and a sum is 0 only of zero bytes; the rest is complement. -/
theorem checksumExtremes : Obligations.ChecksumExtremes :=
  fun _ => ⟨ocsum_eq_zero_iff, icsum_eq_ones_iff.trans ocsum_eq_zero_iff, icsum_eq_zero_iff⟩

/-- Settles O25: both have the same words. -/
theorem oddSpanIsPaddedAtItsEnd : Obligations.OddSpanIsPaddedAtItsEnd := by
  intro s hs
  rw [icsum, icsum, ocsum, ocsum, wordsOf_append_zero_of_odd hs]

/-- Settles O26: after whole words the checksum's two bytes are one more word, the complement of the sum so far. -/
theorem appendedChecksumValidates : Obligations.AppendedChecksumValidates := by
  intro s hs
  have hsum : ocsum (s ++ be16 (icsum s)) = 0xFFFF#16 :=
    ocsum_of_checksum_added (by simpa [wordsOf, sumWords] using sumWords_wordsOf_insert hs (icsum s) [])
  exact ⟨hsum, icsum_eq_zero_iff.mpr hsum⟩

/-- Settles O27: the sequence has a zero word at `p` already, so the checksum put there is added to its sum. -/
theorem checksumInsideSpanValidates : Obligations.ChecksumInsideSpanValidates := by
  intro s p hp h0 h1
  have hlen : p + 1 < s.length := (List.getElem?_eq_some_iff.mp h1).1
  have hsum := sumWords_wordsOf_putBe16 hp hlen (icsum s)
  rw [putBe16_zero_of_zero h0 h1] at hsum
  exact icsum_eq_zero_iff.mpr (ocsum_of_checksum_added hsum)

/-- Settles O28: the word of all ones adds 0xFFFF, which a fold sees only where everything else is zero. -/
theorem zeroWordAndOnesWordSumAlike : Obligations.ZeroWordAndOnesWordSumAlike := by
  intro s p hp hlen
  have hones : ocsum (putBe16 s p 0xFFFF#16) = fold (sumWords (wordsOf (putBe16 s p 0)) + 0xFFFF) :=
    congrArg fold (sumWords_wordsOf_putBe16 hp hlen 0xFFFF#16)
  refine ⟨fun ⟨b, hb, hne⟩ => ?_, fun hzero => ⟨ocsum_eq_zero_iff.mpr hzero, ?_⟩⟩
  · rw [hones, fold_add_ones fun hsum => hne (sumWords_wordsOf_eq_zero_iff.mp hsum b hb), ocsum]
  · rw [hones, sumWords_wordsOf_eq_zero_iff.mpr hzero, Nat.zero_add]
    exact fold_toNat 0xFFFF#16

/-- Settles O30: the little-endian checksum is the other one with its bytes swapped (`icsumLE_eq_swap16`). -/
theorem littleEndianReadingStoresTheSameBytes : Obligations.LittleEndianReadingStoresTheSameBytes := by
  intro s
  refine ⟨icsumLE_eq_swap16 s, ?_⟩
  rw [icsumLE_eq_swap16, swap16, loByte_ofBytes16, hiByte_ofBytes16, be16]

end Sys2Proof
end

section
/-! PROOF. CSUM and a zero-length TCP_CSUM (40_checksum.md R85, R86, R93), by the bytes the span holds. -/

namespace Sys2Proof.Machine

/-- Bytes that stand in the buffer are what a span read there answers. -/
theorem readSpan_of_holdsAt {m : Memory} {o n : Nat} {bytes : List Byte} (hlen : bytes.length = n)
    (hb : HoldsAt m o bytes) : Memory.readSpan m o n = some bytes :=
  Memory.readSpan_eq_some.mpr ⟨hlen, hlen ▸ hb⟩

/-- CSUM over a span that holds `bytes` completes with their checksum, wherever the span stands (R86, R93). -/
theorem exec_csum_of_holdsAt {s : State} {bytes : List Byte} (hf : s.opOffset + s.opLength ≤ s.bufBytes)
    (hlen : bytes.length = s.opLength) (hb : HoldsAt s.buf s.opOffset bytes) :
    exec .csum s = .next ((s.withResult ((icsum bytes).setWidth 32)).withStatus statusDone) :=
  execCsum_done hf (readSpan_of_holdsAt hlen hb)

end Sys2Proof.Machine

namespace Sys2Proof

open Sys2Proof.Machine

/-- Settles O23: a span of no bytes is read without reading a byte, and leaves TCP_CSUM the pseudo-header alone. -/
theorem zeroLengthSpanIsLegal : Obligations.ZeroLengthSpanIsLegal := by
  refine ⟨by decide, fun s hlen ho => ?_⟩
  have hn : s.opLength = 0 := congrArg BitVec.toNat hlen
  have hf : s.opOffset + s.opLength ≤ s.bufBytes := by omega
  have hspan : Memory.readSpan s.buf s.opOffset s.opLength = some [] := by rw [hn, Memory.readSpan]
  have hpseudo : segmentChecksum s.srcAddr s.dstAddr s.length [] = icsum (pseudoHeader s.srcAddr s.dstAddr 0) := by
    rw [segmentChecksum, List.append_nil, hlen]
  constructor
  · exact execCsum_done hf hspan
  · rw [exec, execTcpCsum_done hf hspan, hpseudo]
    rfl

/-- Settles O29: the sum has the same terms after a swap of words (`ocsum_swap_words`); 0x0100 + 0x0000 and
0x0000 + 0x0001 differ by a swap of bytes; CSUM's answer is a function of the bytes (`exec_csum_of_holdsAt`). -/
theorem checksumIsPositionIndependent : Obligations.ChecksumIsPositionIndependent := by
  refine ⟨fun pre mid post a b c d hpre hmid => ?_, ⟨1, 0, 0, 0, by decide⟩, ?_⟩
  · rw [icsum, icsum, ocsum_swap_words hpre hmid]
  · intro s t u bytes hlen ht hsf htf hsb htb hu
    have hlen' : bytes.length = t.opLength := by rw [hlen, State.opLength, State.opLength, ht]
    cases (exec_csum_of_holdsAt hsf hlen hsb).symm.trans hu
    exact exec_csum_of_holdsAt htf hlen' htb

/-- Settles O31: CSUM inside the buffer completes on the bytes it reads, and outside it raises RANGE. -/
theorem csumComputesTheChecksum : Obligations.CsumComputesTheChecksum :=
  ⟨decodeCmd_eq_ok_iff.mpr rfl,
    fun _ => ⟨fun _ hf hlen hb => exec_csum_of_holdsAt hf hlen hb, fun hr => execCsum_range hr⟩⟩

end Sys2Proof
end

section
/-! PROOF. Bytes that stand in the buffer (20_memory.md R42, R44): a command that completes leaves its bytes from
OFFSET on, a part of what stands at an offset stands at its own, and a big-endian field reads back. -/

namespace Sys2Proof.Machine

/-! ### What stands in the buffer -/

theorem holdsAt_writeSpan (m : Memory) (o : Nat) (bytes : List Byte) :
    HoldsAt (Memory.writeSpan m o bytes) o bytes :=
  (Memory.readSpan_eq_some.mp (Memory.readSpan_writeSpan m o bytes)).2

/-- What the bytes from the `k`-th on begin with stands `k` further on. -/
theorem HoldsAt.of_prefix_drop {m : Memory} {o : Nat} {bytes part : List Byte} (h : HoldsAt m o bytes) (k : Nat)
    (hpart : part <+: bytes.drop k) : HoldsAt m (o + k) part := by
  obtain ⟨rest, hrest⟩ := hpart
  intro j hj
  have hget : bytes[k + j]? = part[j]? := by
    rw [← List.getElem?_drop, ← hrest, List.getElem?_append_left hj]
  have hlt : k + j < bytes.length :=
    (List.getElem?_eq_some_iff.mp (hget.trans (List.getElem?_eq_getElem hj))).1
  rw [Nat.add_assoc, h (k + j) hlt, hget]

/-! ### Big-endian fields -/

theorem ofBytes32_be32 (v : Word) :
    ofBytes32 (hiByte (v.extractLsb' 16 16)) (loByte (v.extractLsb' 16 16)) (hiByte (v.extractLsb' 0 16))
      (loByte (v.extractLsb' 0 16)) = v := by
  rw [ofBytes32, ofBytes16_hiByte_loByte, ofBytes16_hiByte_loByte]
  exact (BitVec.extractLsb'_append_extractLsb'_eq_extractLsb' (start₁ := 0) (len₁ := 16) rfl).trans
    BitVec.extractLsb'_eq_self

theorem HoldsAt.field16_eq {m : Memory} {o : Nat} {v : Half} (h : HoldsAt m o (be16 v)) :
    Memory.field16 m o = some v := by
  rw [Memory.field16, readSpan_of_holdsAt (n := 2) rfl h]
  exact congrArg some (ofBytes16_hiByte_loByte v)

theorem HoldsAt.field32_eq {m : Memory} {o : Nat} {v : Word} (h : HoldsAt m o (be32 v)) :
    Memory.field32 m o = some v := by
  rw [Memory.field32, readSpan_of_holdsAt (n := 4) rfl h]
  exact congrArg some (ofBytes32_be32 v)

/-! ### A command that completes -/

/-- A command whose checks pass changes RESULT, STATUS and the buffer alone, and its bytes then stand at OFFSET. -/
theorem command_completes {c : Instr} {s : State} {r : Word} (hc : isCommand c = true)
    (hf : s.opOffset + spanBytes s c ≤ s.bufBytes) (hn : c = .ipBuild → 20 + s.opLength ≤ 0xFFFF)
    (hr : commandResult s c = some r) :
    ∃ t, exec c s = .next t ∧ t = { s with buf := t.buf, result := r, status := 0x00000001 } ∧
      HoldsAt t.buf s.opOffset (storedBytes s c) :=
  ⟨_, command_done hc hf hn hr, rfl, holdsAt_writeSpan s.buf s.opOffset (storedBytes s c)⟩

end Sys2Proof.Machine
end

section
/-! PROOF. The IPv4 header (41_ipv4_header.md R105 to R109): its bytes and their sum, its validation by CSUM, and the
fields the accessors find where it stands in the buffer. -/

namespace Sys2Proof.Machine

/-! ### The header function -/

theorem toNat_icsum (s : List Byte) : (icsum s).toNat = 0xFFFF - foldClosed (sumWords (wordsOf s)) := by
  rw [icsum, ocsum, BitVec.toNat_not, toNat_fold]

section
variable (tl ident : Half) (src dst : Word)

theorem ipHeaderZeroed_eq : ipHeaderZeroed tl ident src dst =
    [0x45, 0x00] ++ be16 tl ++ be16 ident ++ [0x00, 0x00, 0x40, 0x06] ++ [0x00, 0x00] ++ be32 src ++ be32 dst := rfl

theorem ipHeader_eq : ipHeader tl ident src dst =
    [0x45, 0x00] ++ be16 tl ++ be16 ident ++ [0x00, 0x00, 0x40, 0x06] ++ be16 (ipChecksum tl ident src dst)
      ++ be32 src ++ be32 dst := rfl

theorem wordsOf_ipHeaderZeroed : wordsOf (ipHeaderZeroed tl ident src dst) =
    [0x4500#16, tl, ident, 0x0000#16, 0x4006#16, 0x0000#16, src.extractLsb' 16 16, src.extractLsb' 0 16,
      dst.extractLsb' 16 16, dst.extractLsb' 0 16] := by
  simp only [ipHeaderZeroed_eq, be32, be16, List.cons_append, List.nil_append, wordsOf, ofBytes16_hiByte_loByte]
  rfl

theorem sumWords_wordsOf_ipHeaderZeroed : sumWords (wordsOf (ipHeaderZeroed tl ident src dst)) =
    0x4500 + tl.toNat + ident.toNat + 0x4006 + (src.extractLsb' 16 16).toNat + (src.extractLsb' 0 16).toNat
      + (dst.extractLsb' 16 16).toNat + (dst.extractLsb' 0 16).toNat := by
  simp only [wordsOf_ipHeaderZeroed, sumWords, BitVec.toNat_ofNat]
  omega

/-- The zeroed header has a zero word where its checksum goes (R108). -/
theorem icsum_ipHeader : icsum (ipHeader tl ident src dst) = 0 :=
  checksumInsideSpanValidates (ipHeaderZeroed tl ident src dst) ipChecksumAt rfl rfl rfl

end

/-! ### A header in the buffer -/

section
variable {tl ident : Half} {src dst : Word}

/-- CSUM over a header that stands at OFFSET completes with RESULT 0 (R108). -/
theorem exec_csum_of_ipHeader_holdsAt {s : State} (hf : s.opOffset + 20 ≤ s.bufBytes)
    (hb : HoldsAt s.buf s.opOffset (ipHeader tl ident src dst)) :
    exec .csum { s with length := 20 } = .next { s with length := 20, result := 0, status := 0x00000001 } := by
  have hdone := exec_csum_of_holdsAt (s := { s with length := 20 }) hf (ipHeader_length tl ident src dst) hb
  rw [icsum_ipHeader] at hdone
  exact hdone

/-- After a command whose bytes begin with a header, CSUM with LENGTH 20 is over that header (R108). -/
theorem exec_csum_after_command {c : Instr} {s : State} {r : Word} (hc : isCommand c = true)
    (hf : s.opOffset + spanBytes s c ≤ s.bufBytes) (hn : c = .ipBuild → 20 + s.opLength ≤ 0xFFFF)
    (hr : commandResult s c = some r) (hspan : 20 ≤ spanBytes s c)
    (hheader : ipHeader tl ident src dst <+: storedBytes s c) :
    ∃ t, exec c s = .next t ∧
      exec .csum { t with length := 20 } = .next { t with length := 20, result := 0, status := 0x00000001 } := by
  obtain ⟨t, he, ht, hb⟩ := command_completes hc hf hn hr
  have hoff : t.opOffset = s.opOffset := by rw [ht]; rfl
  have hsize : t.bufBytes = s.bufBytes := by rw [ht]
  have hfit : t.opOffset + 20 ≤ t.bufBytes := by omega
  exact ⟨t, he, exec_csum_of_ipHeader_holdsAt hfit (hoff ▸ hb.of_prefix_drop 0 hheader)⟩

/-- The accessors find every field of a header that stands at `h` (R104, R109). -/
theorem ipFields_of_holdsAt {m : Memory} {h : Nat} (hb : HoldsAt m h (ipHeader tl ident src dst)) :
    ipVersion m h = some 4 ∧ ipIhl m h = some 5 ∧ ipTos m h = some 0 ∧ ipTotlen m h = some tl ∧
      ipIdent m h = some ident ∧ ipFragword m h = some 0 ∧ ipTtl m h = some 64 ∧ ipProto m h = some 6 ∧
      ipSrc m h = some src ∧ ipDst m h = some dst := by
  have hfirst : Memory.read m h = some 0x45#8 := hb 0 (by simp)
  refine ⟨?version, ?ihl, ?tos, ?totlen, ?ident, ?fragword, ?ttl, ?proto, ?src, ?dst⟩
  case version => rw [ipVersion, hfirst]; rfl
  case ihl => rw [ipIhl, hfirst]; rfl
  case tos => exact hb 1 (by simp)
  case ttl => exact hb 8 (by simp)
  case proto => exact hb 9 (by simp)
  case totlen => exact HoldsAt.field16_eq (hb.of_prefix_drop 2 ⟨_, rfl⟩)
  case ident => exact HoldsAt.field16_eq (hb.of_prefix_drop 4 ⟨_, rfl⟩)
  case fragword => exact HoldsAt.field16_eq (hb.of_prefix_drop 6 ⟨_, rfl⟩)
  case src => exact HoldsAt.field32_eq (hb.of_prefix_drop 12 ⟨_, rfl⟩)
  case dst => exact HoldsAt.field32_eq (hb.of_prefix_drop 16 ⟨_, rfl⟩)

end

end Sys2Proof.Machine

namespace Sys2Proof

open Sys2Proof.Machine

/-- Settles O35: the two layouts byte for byte, and the checksum's number by the sum of the header's ten
words, of which two are 0 (`sumWords_wordsOf_ipHeaderZeroed`). -/
theorem ipHeaderFunction : Obligations.IpHeaderFunction := by
  intro tl ident src dst
  refine ⟨congrArg icsum (ipHeaderZeroed_eq tl ident src dst), ipHeader_eq tl ident src dst, ?_⟩
  rw [ipChecksum, toNat_icsum, sumWords_wordsOf_ipHeaderZeroed]

/-- Settles O36: IP_BUILD completes where both checks pass (`command_completes`), and the bytes it stores are the
header's. -/
theorem ipBuildWritesTheHeader : Obligations.IpBuildWritesTheHeader := by
  refine ⟨decodeCmd_eq_ok_iff.mpr rfl, fun s => ⟨fun hf hn => ?_, execIpBuild_range, execIpBuild_lengthOvf⟩⟩
  obtain ⟨t, he, ht, hb⟩ := command_completes (c := .ipBuild) rfl hf (fun _ => hn) rfl
  refine ⟨t, _, he, rfl, ht, ?_, fun a ha => command_read_outside rfl he ha⟩
  rw [← ipHeader_eq]
  exact readSpan_of_holdsAt (ipHeader_length ..) hb

/-- Settles O42: a header stands at OFFSET after either command, alone or followed by the TCP header. -/
theorem ipHeaderValidates : Obligations.IpHeaderValidates := by
  refine ⟨icsum_ipHeader, fun s hf hn => ?ipBuild, fun s hf => ?segBuild⟩
  case ipBuild =>
    exact exec_csum_after_command (c := .ipBuild) rfl hf (fun _ => hn) rfl le_rfl List.prefix_rfl
  case segBuild =>
    exact exec_csum_after_command (c := .segBuild) rfl hf nofun rfl (by simp [spanBytes]) (List.prefix_append _ _)

/-- Settles O44: the accessors find every field of the header IP_BUILD stores (`ipFields_of_holdsAt`). -/
theorem ipHeaderRoundTrip : Obligations.IpHeaderRoundTrip := by
  intro s hf hn
  obtain ⟨t, he, -, hb⟩ := command_completes (c := .ipBuild) rfl hf (fun _ => hn) rfl
  exact ⟨t, he, ipFields_of_holdsAt hb⟩

end Sys2Proof
end

section
/-! PROOF. TCP_CSUM and the TCP header (42_tcp_checksum.md R123 to R131): the pseudo-header's words, a segment that
holds its own checksum, the header's bytes, and the fields the accessors find where it stands in the buffer. -/

namespace Sys2Proof.Machine

/-! ### The segment's checksum -/

section
variable (src dst : Word) (len : Half) (seg : List Byte)

@[simp] theorem pseudoHeader_length : (pseudoHeader src dst len).length = 12 := rfl

/-- The pseudo-header is six whole words, so the segment's words line up with its own bytes (R128). -/
theorem wordsOf_pseudoHeader_append : wordsOf (pseudoHeader src dst len ++ seg) =
    src.extractLsb' 16 16 :: src.extractLsb' 0 16 :: dst.extractLsb' 16 16 :: dst.extractLsb' 0 16 :: 0x0006#16 ::
      len :: wordsOf seg := by
  simp only [pseudoHeader, be32, be16, List.cons_append, List.nil_append, wordsOf, ofBytes16_hiByte_loByte]
  rfl

/-- The two addresses are words of one sum (R131). -/
theorem segmentChecksum_swap : segmentChecksum dst src len seg = segmentChecksum src dst len seg := by
  have hsum : sumWords (wordsOf (pseudoHeader dst src len ++ seg)) =
      sumWords (wordsOf (pseudoHeader src dst len ++ seg)) := by
    simp only [wordsOf_pseudoHeader_append, sumWords]
    omega
  rw [segmentChecksum, icsum, ocsum, hsum, segmentChecksum, icsum, ocsum]

variable {seg}

/-- A segment whose checksum field holds its checksum with that field zero has checksum 0 (R129). -/
theorem segmentChecksum_putBe16_checksum (hlen : 18 ≤ seg.length) : segmentChecksum src dst len
    (putBe16 seg tcpChecksumAt (segmentChecksum src dst len (putBe16 seg tcpChecksumAt 0))) = 0 := by
  have heven : (pseudoHeader src dst len).length % 2 = 0 := by rw [pseudoHeader_length]
  have hsum (c : Half) : sumWords (wordsOf (pseudoHeader src dst len ++ putBe16 seg tcpChecksumAt c)) =
      sumWords (wordsOf (pseudoHeader src dst len ++ putBe16 seg tcpChecksumAt 0)) + c.toNat := by
    rw [wordsOf_append_of_even heven, wordsOf_append_of_even heven, sumWords_append, sumWords_append,
      sumWords_wordsOf_putBe16 (p := tcpChecksumAt) rfl hlen, Nat.add_assoc]
  exact icsum_eq_zero_iff.mpr (ocsum_of_checksum_added (hsum _))

end

/-! ### The header function -/

section
variable (src dst : Word) (f : TcpFields)

theorem tcpHeaderZeroed_eq : tcpHeaderZeroed f =
    be16 f.sport ++ be16 f.dport ++ be32 f.seq ++ be32 f.ack ++ [0x50, tcpFlagsByte f.synf f.ackf] ++ be16 f.win
      ++ [0x00, 0x00] ++ [0x00, 0x00] := rfl

theorem tcpHeader_eq : tcpHeader src dst f =
    be16 f.sport ++ be16 f.dport ++ be32 f.seq ++ be32 f.ack ++ [0x50, tcpFlagsByte f.synf f.ackf] ++ be16 f.win
      ++ be16 (tcpChecksum src dst f) ++ [0x00, 0x00] := rfl

/-- The zeroed header is a segment with a zero checksum field, and the built one has its checksum there (R129). -/
theorem segmentChecksum_tcpHeader : segmentChecksum src dst tcpHeaderBytes (tcpHeader src dst f) = 0 :=
  segmentChecksum_putBe16_checksum src dst tcpHeaderBytes (seg := tcpHeaderZeroed f) (by decide : 18 ≤ 20)

end

/-- SYN and ACK are bits 1 and 4 of the flags byte (R122). -/
theorem tcpFlagsByte_bits : ∀ synf ackf : BitVec 1, (tcpFlagsByte synf ackf).extractLsb' 1 1 = synf ∧
    (tcpFlagsByte synf ackf).extractLsb' 4 1 = ackf := by decide

/-! ### A segment or a header in the buffer -/

/-- TCP_CSUM over a span that holds `bytes` completes with their checksum under the pseudo-header (R128). -/
theorem exec_tcpCsum_of_holdsAt {s : State} {bytes : List Byte} (hf : s.opOffset + s.opLength ≤ s.bufBytes)
    (hlen : bytes.length = s.opLength) (hb : HoldsAt s.buf s.opOffset bytes) :
    exec .tcpCsum s =
      .next ((s.withResult ((segmentChecksum s.srcAddr s.dstAddr s.length bytes).setWidth 32)).withStatus statusDone) :=
  execTcpCsum_done hf (readSpan_of_holdsAt hlen hb)

/-- TCP_CSUM over a segment that verifies completes with RESULT 0 (R129). -/
theorem exec_tcpCsum_of_verifies {s : State} {bytes : List Byte} (hf : s.opOffset + s.opLength ≤ s.bufBytes)
    (hlen : bytes.length = s.opLength) (hb : HoldsAt s.buf s.opOffset bytes)
    (hzero : segmentChecksum s.srcAddr s.dstAddr s.length bytes = 0) :
    exec .tcpCsum s = .next { s with result := 0, status := 0x00000001 } := by
  rw [exec_tcpCsum_of_holdsAt hf hlen hb, hzero]
  rfl

/-- TCP_CSUM with LENGTH 20 over a header built for the addresses loaded completes with RESULT 0 (R129). -/
theorem exec_tcpCsum_of_tcpHeader_holdsAt {s : State} {f : TcpFields} (hf : s.opOffset + 20 ≤ s.bufBytes)
    (hb : HoldsAt s.buf s.opOffset (tcpHeader s.srcAddr s.dstAddr f)) :
    exec .tcpCsum { s with length := 20 } = .next { s with length := 20, result := 0, status := 0x00000001 } :=
  exec_tcpCsum_of_verifies (s := { s with length := 20 }) hf (tcpHeader_length ..) hb (segmentChecksum_tcpHeader ..)

/-- The accessors find every field of a header that stands at `t` (R121, R130). -/
theorem tcpFields_of_holdsAt {m : Memory} {t : Nat} {src dst : Word} {f : TcpFields}
    (hb : HoldsAt m t (tcpHeader src dst f)) :
    tcpSport m t = some f.sport ∧ tcpDport m t = some f.dport ∧ tcpSeq m t = some f.seq ∧ tcpAck m t = some f.ack ∧
      tcpDoff m t = some 5 ∧ tcpSyn m t = some f.synf ∧ tcpAckf m t = some f.ackf ∧
      tcpFlags m t = some (tcpFlagsByte f.synf f.ackf) ∧ tcpWin m t = some f.win ∧ tcpUrg m t = some 0 := by
  have hoffset : Memory.read m (t + 12) = some 0x50#8 := hb 12 (by simp)
  have hflags : tcpFlags m t = some (tcpFlagsByte f.synf f.ackf) := hb 13 (by simp)
  obtain ⟨hsyn, hack⟩ := tcpFlagsByte_bits f.synf f.ackf
  refine ⟨?sport, ?dport, ?seq, ?ack, ?doff, ?syn, ?ackf, hflags, ?win, ?urg⟩
  case doff => rw [tcpDoff, hoffset]; rfl
  case syn => rw [tcpSyn, hflags, Option.map_some, hsyn]
  case ackf => rw [tcpAckf, hflags, Option.map_some, hack]
  case sport => exact HoldsAt.field16_eq (hb.of_prefix_drop 0 ⟨_, rfl⟩)
  case dport => exact HoldsAt.field16_eq (hb.of_prefix_drop 2 ⟨_, rfl⟩)
  case seq => exact HoldsAt.field32_eq (hb.of_prefix_drop 4 ⟨_, rfl⟩)
  case ack => exact HoldsAt.field32_eq (hb.of_prefix_drop 8 ⟨_, rfl⟩)
  case win => exact HoldsAt.field16_eq (hb.of_prefix_drop 14 ⟨_, rfl⟩)
  case urg => exact HoldsAt.field16_eq (hb.of_prefix_drop 18 ⟨_, rfl⟩)

/-! ### The addresses loaded the other way round -/

/-- The state with the two addresses changed for others. -/
def State.withAddrs (s : State) (src dst : Word) : State := { s with srcAddr := src, dstAddr := dst }

/-- TCP_CSUM reads the addresses only through a sum they enter alike, and writes neither (R131). -/
theorem exec_tcpCsum_withAddrs_swapped (s : State) : exec .tcpCsum (s.withAddrs s.dstAddr s.srcAddr) =
    mapNext (fun t => t.withAddrs s.dstAddr s.srcAddr) (exec .tcpCsum s) := by
  have hresult : commandResult (s.withAddrs s.dstAddr s.srcAddr) .tcpCsum = commandResult s .tcpCsum := by
    simp only [commandResult, State.withAddrs, segmentChecksum_swap s.srcAddr s.dstAddr]
    rfl
  exact command_mapNext rfl ⟨fun _ _ => rfl, fun _ _ => rfl, fun _ _ => rfl⟩ rfl
    ⟨rfl, rfl, rfl, rfl, fun _ => rfl, hresult, rfl⟩

end Sys2Proof.Machine

namespace Sys2Proof

open Sys2Proof.Machine

/-- Settles O37: the layouts of the zeroed and of the summed header, byte for byte, behind the pseudo-header of
length 20. -/
theorem tcpHeaderFunction : Obligations.TcpHeaderFunction := by
  intro src dst f
  refine ⟨?_, tcpHeader_eq src dst f⟩
  rw [tcpChecksum, tcpHeaderZeroed_eq]
  rfl

/-- Settles O32: TCP_CSUM inside the buffer completes on the bytes it reads, and outside it raises RANGE. -/
theorem tcpCsumComputesTheSegmentChecksum : Obligations.TcpCsumComputesTheSegmentChecksum := by
  refine ⟨decodeCmd_eq_ok_iff.mpr rfl, fun s => ⟨fun bytes hf hlen hb => ?_, execTcpCsum_range⟩⟩
  have hpseudo : be32 s.srcAddr ++ be32 s.dstAddr ++ [0x00, 0x06] ++ be16 s.length =
      pseudoHeader s.srcAddr s.dstAddr s.length := rfl
  rw [hpseudo]
  exact exec_tcpCsum_of_holdsAt hf hlen hb

/-- Settles O34: the checksum is the same both ways round, and nothing else in TCP_CSUM reads an address
(`exec_tcpCsum_withAddrs_swapped`). -/
theorem swappedAddressesGiveTheSameChecksum : Obligations.SwappedAddressesGiveTheSameChecksum := by
  intro s t h
  have hswap := exec_tcpCsum_withAddrs_swapped s
  rw [h] at hswap
  exact hswap

/-- Settles O38: TCP_BUILD completes where its check passes (`command_completes`), and the bytes it stores are the
header's. -/
theorem tcpBuildWritesTheHeader : Obligations.TcpBuildWritesTheHeader := by
  refine ⟨decodeCmd_eq_ok_iff.mpr rfl, fun s => ⟨fun hf => ?_, execTcpBuild_range⟩⟩
  obtain ⟨t, he, ht, hb⟩ := command_completes (c := .tcpBuild) rfl hf nofun rfl
  refine ⟨t, _, he, rfl, ht, ?_, fun a ha => command_read_outside rfl he ha⟩
  exact readSpan_of_holdsAt rfl (tcpHeader_eq s.srcAddr s.dstAddr s.opTcp ▸ hb)

/-- Settles O43: the header and the segment hold their own checksum (`segmentChecksum_putBe16_checksum`), and
TCP_BUILD leaves the header at OFFSET and the addresses as they were. -/
theorem tcpHeaderVerifies : Obligations.TcpHeaderVerifies := by
  refine ⟨segmentChecksum_tcpHeader, fun s hf => ?built, fun s seg hlen hfield hf hb => ?segment⟩
  case built =>
    obtain ⟨t, he, ht, hb⟩ := command_completes (c := .tcpBuild) rfl hf nofun rfl
    refine ⟨t, he, exec_tcpCsum_of_tcpHeader_holdsAt (f := s.opTcp) ?fits ?holds⟩
    case fits => rw [ht]; exact hf
    case holds => rw [ht]; exact hb
  case segment =>
    have hlen' : (putBe16 seg 16 (icsum (pseudoHeader s.srcAddr s.dstAddr s.length ++ putBe16 seg 16 0))).length =
        s.opLength := by simpa [putBe16] using hlen
    exact exec_tcpCsum_of_verifies hf hlen' hb (segmentChecksum_putBe16_checksum _ _ _ hfield)

/-- Settles O45: the accessors find every field of the header TCP_BUILD stores (`tcpFields_of_holdsAt`). -/
theorem tcpHeaderRoundTrip : Obligations.TcpHeaderRoundTrip := by
  intro s hf
  obtain ⟨t, he, -, hb⟩ := command_completes (c := .tcpBuild) rfl hf nofun rfl
  exact ⟨t, he, tcpFields_of_holdsAt hb⟩

end Sys2Proof
end

section
/-! PROOF. SEG_BUILD (43_segment_build.md R141 to R145): the two headers it leaves in the buffer, their checksums in
RESULT, and the pair of commands that leaves the same buffer. -/

namespace Sys2Proof.Machine

/-! ### RESULT and OFFSET -/

/-- Two checksums side by side in RESULT, CSUM_HI shifted above CSUM_LO (R141). -/
theorem checksums_append_eq_or (hi lo : Half) : (hi ++ lo : Word) = hi.setWidth 32 <<< 16 ||| lo.setWidth 32 := by
  rw [← BitVec.setWidth_append_eq_shiftLeft_setWidth_or, BitVec.setWidth_eq]

/-- Where an IPv4 header fits, OFFSET + 20 does not wrap, so it is where the TCP header starts (R142). -/
theorem toNat_offset_add_twenty {s : State} (hmax : s.bufBytes ≤ Config.maxBufBytes)
    (hf : s.opOffset + 20 ≤ s.bufBytes) : (s.offset + 20).toNat = s.opOffset + 20 := by
  have hlt : s.offset.toNat + 20 < 2 ^ 16 := by
    simp only [State.opOffset, Config.maxBufBytes] at hf hmax
    omega
  exact BitVec.toNat_add_of_lt hlt

/-! ### The datagram in the buffer -/

/-- Where 40 bytes fit, SEG_BUILD completes with both checksums, the IPv4 header at OFFSET and the TCP header
20 bytes on (R141). -/
theorem segBuild_completes {s : State} (hf : s.opOffset + 40 ≤ s.bufBytes) :
    ∃ t, exec .segBuild s = .next t ∧
      t = { s with
        buf := t.buf,
        result := ipChecksum 40 s.ipid s.srcAddr s.dstAddr ++ tcpChecksum s.srcAddr s.dstAddr s.opTcp,
        status := 0x00000001 } ∧
      HoldsAt t.buf s.opOffset (ipHeader 40 s.ipid s.srcAddr s.dstAddr) ∧
      HoldsAt t.buf (s.opOffset + 20) s.builtTcpHeader := by
  obtain ⟨t, he, ht, hb⟩ := command_completes (c := .segBuild) rfl hf nofun rfl
  exact ⟨t, he, ht, hb.of_prefix_drop 0 (List.prefix_append _ _), hb.of_prefix_drop 20 List.prefix_rfl⟩

/-- TCP_CSUM pointed at a header that stands in the buffer completes with RESULT 0 (R129, R144). -/
theorem exec_tcpCsum_offset_of_tcpHeader_holdsAt {s : State} {o : Half} {f : TcpFields}
    (hf : o.toNat + 20 ≤ s.bufBytes) (hb : HoldsAt s.buf o.toNat (tcpHeader s.srcAddr s.dstAddr f)) :
    exec .tcpCsum { s with offset := o, length := 20 } =
      .next { s with offset := o, length := 20, result := 0, status := 0x00000001 } :=
  exec_tcpCsum_of_tcpHeader_holdsAt (s := { s with offset := o }) hf hb

/-! ### The two commands one after the other -/

/-- SEG_BUILD's bytes are the IPv4 header's and then, 20 bytes on, the TCP header's (R142). -/
theorem writeSpan_storedBytes_segBuild (s : State) (m : Memory) (o : Nat) :
    Memory.writeSpan m o (storedBytes s .segBuild) =
      Memory.writeSpan (Memory.writeSpan m o (ipHeader segTotalLength s.ipid s.srcAddr s.dstAddr)) (o + 20)
        s.builtTcpHeader := by
  rw [storedBytes, ← Memory.writeSpan_append, ipHeader_length]

/-- A command whose checks pass leaves the buffer with its bytes written from OFFSET on (R42). -/
theorem command_completes_writeSpan {c : Instr} {s : State} {r : Word} (hc : isCommand c = true)
    (hf : s.opOffset + spanBytes s c ≤ s.bufBytes) (hn : c = .ipBuild → 20 + s.opLength ≤ 0xFFFF)
    (hr : commandResult s c = some r) :
    ∃ t, exec c s = .next t ∧ t = { s with buf := t.buf, result := r, status := 0x00000001 } ∧
      t.buf = Memory.writeSpan s.buf s.opOffset (storedBytes s c) :=
  ⟨_, command_done hc hf hn hr, rfl, rfl⟩

section
variable {s : State}

/-- IP_BUILD with LENGTH 20 writes the header of a datagram of 40 bytes (R142). -/
theorem ipBuild_length_twenty_completes (hf : s.opOffset + 20 ≤ s.bufBytes) :
    ∃ u, exec .ipBuild { s with length := 20 } = .next u ∧
      u = { s with
        length := 20,
        buf := u.buf,
        result := (ipChecksum segTotalLength s.ipid s.srcAddr s.dstAddr).setWidth 32,
        status := 0x00000001 } ∧
      u.buf = Memory.writeSpan s.buf s.opOffset (ipHeader segTotalLength s.ipid s.srcAddr s.dstAddr) :=
  command_completes_writeSpan (c := .ipBuild) (s := { s with length := 20 }) rfl hf
    (fun _ => (by decide : 20 + 20 ≤ 0xFFFF)) rfl

/-- TCP_BUILD writes the same header wherever OFFSET says (R126, R142). -/
theorem tcpBuild_offset_completes {o : Half} (hf : o.toNat + 20 ≤ s.bufBytes) :
    ∃ v, exec .tcpBuild { s with offset := o } = .next v ∧
      v = { s with
        offset := o,
        buf := v.buf,
        result := (tcpChecksum s.srcAddr s.dstAddr s.opTcp).setWidth 32,
        status := 0x00000001 } ∧
      v.buf = Memory.writeSpan s.buf o.toNat s.builtTcpHeader :=
  command_completes_writeSpan (c := .tcpBuild) (s := { s with offset := o }) rfl hf nofun rfl

end

end Sys2Proof.Machine

namespace Sys2Proof

open Sys2Proof.Machine

/-- Settles O39: SEG_BUILD completes where its check passes (`command_completes`), and the bytes it stores are the two
headers'. -/
theorem segBuildWritesBothHeaders : Obligations.SegBuildWritesBothHeaders := by
  refine ⟨decodeCmd_eq_ok_iff.mpr rfl, fun s => ⟨fun hf => ?_, execSegBuild_range⟩⟩
  obtain ⟨t, he, ht, hb⟩ := command_completes (c := .segBuild) rfl hf nofun rfl
  rw [checksums_append_eq_or] at ht
  exact ⟨t, he, ht, readSpan_of_holdsAt (storedBytes_length s .segBuild) hb,
    fun a ha => command_read_outside rfl he ha⟩

/-- Settles O40: both ways write the IPv4 header and then the TCP header 20 bytes on, but SEG_BUILD checks all 40 bytes
first, where each command of the pair checks its own 20. -/
theorem segBuildIsIpBuildThenTcpBuild : Obligations.SegBuildIsIpBuildThenTcpBuild := by
  intro s hmax
  refine ⟨fun hf => ?both, fun hf hr => ?firstOnly, fun hr => ⟨execSegBuild_range (by omega), execIpBuild_range hr⟩⟩
  case both =>
    have hip : s.opOffset + 20 ≤ s.bufBytes := by omega
    have hstart := toNat_offset_add_twenty hmax hip
    obtain ⟨u, hu, hus, hub⟩ := ipBuild_length_twenty_completes hip
    have hsize : u.bufBytes = s.bufBytes := by rw [hus]
    have htcp : u.builtTcpHeader = s.builtTcpHeader := by rw [hus]; rfl
    obtain ⟨v, hv, hvs, hvb⟩ := tcpBuild_offset_completes (s := u) (o := s.offset + 20) (by omega)
    obtain ⟨t, ht, hts, htb⟩ := command_completes_writeSpan (c := .segBuild) rfl hf nofun rfl
    refine ⟨t, u, v, ht, hu, hv, ?buf, by rw [hts], by rw [hts], ?result⟩
    case buf => rw [htb, writeSpan_storedBytes_segBuild, hvb, hub, htcp, hstart]
    case result =>
      rw [hts, hvs, hus]
      exact checksums_append_eq_or _ _
  case firstOnly =>
    have hstart := toNat_offset_add_twenty hmax hf
    obtain ⟨u, hu, hus, -⟩ := ipBuild_length_twenty_completes hf
    have hsize : u.bufBytes = s.bufBytes := by rw [hus]
    have hr' : u.bufBytes < (s.offset + 20).toNat + 20 := by omega
    exact ⟨execSegBuild_range hr, u, hu, by rw [hus], execTcpBuild_range (s := { u with offset := s.offset + 20 }) hr'⟩

/-- Settles O41: each header stands where CSUM or TCP_CSUM is pointed and holds its own checksum, and the IPv4 header's
length field leads to the TCP header. -/
theorem segBuildDatagramVerifies : Obligations.SegBuildDatagramVerifies := by
  intro s hmax hf
  obtain ⟨t, he, ht, hip, htcp⟩ := segBuild_completes hf
  have hsize : t.bufBytes = s.bufBytes := by rw [ht]
  have hoff : t.opOffset = s.opOffset := by rw [ht]; rfl
  have hsrc : t.srcAddr = s.srcAddr := by rw [ht]
  have hdst : t.dstAddr = s.dstAddr := by rw [ht]
  have hstart : (s.offset + 20).toNat = s.opOffset + 20 := toNat_offset_add_twenty hmax (by omega)
  obtain ⟨-, hihl, -, htotlen, -⟩ := ipFields_of_holdsAt hip
  refine ⟨t, he, exec_csum_of_ipHeader_holdsAt (by omega) (hoff ▸ hip), ?tcp, htotlen, ?start⟩
  case tcp =>
    refine exec_tcpCsum_offset_of_tcpHeader_holdsAt (f := s.opTcp) (by omega) ?_
    rwa [hstart, hsrc, hdst]
  case start => rw [tcpStart, hihl]; rfl

/-- Settles O46: the accessors find every field of the two headers SEG_BUILD stores (`ipFields_of_holdsAt`,
`tcpFields_of_holdsAt`). -/
theorem datagramRoundTrip : Obligations.DatagramRoundTrip := by
  intro s hf
  obtain ⟨t, he, -, hip, htcp⟩ := segBuild_completes hf
  obtain ⟨hversion, hihl, htos, htotlen, hident, hfrag, httl, hproto, hsrc, hdst⟩ := ipFields_of_holdsAt hip
  obtain ⟨hsport, hdport, hseq, hack, hdoff, hsyn, hackf, -, hwin, hurg⟩ := tcpFields_of_holdsAt htcp
  exact ⟨t, he, hsrc, hdst, hident, htotlen, hversion, hihl, htos, hfrag, httl, hproto, hsport, hdport, hseq, hack,
    hsyn, hackf, hwin, hdoff, hurg⟩

end Sys2Proof
end

section
/-! PROOF. The host's transactions and the step on one of them (44_host_access.md R150 to R155, R158, R159): what
each transaction answers in every case, a step as what R61 makes of its transaction, and what no step can do. -/

namespace Sys2Proof.Machine

/-! ### Buffer accesses, case by case -/

section
variable {k : BufIndex} {s : State}

theorem exec_bufRd_of_unwritten (hk : k.toNat < s.bufBytes) (hb : Memory.read s.buf k.toNat = none) :
    exec (.bufRd k) s = .fault .unwrittenByte := by
  rw [exec, execBufRd, if_pos hk, hb]

theorem exec_bufRd_of_outside (hk : s.bufBytes ≤ k.toNat) : exec (.bufRd k) s = .fault .busError := by
  rw [exec, execBufRd, if_neg (Nat.not_lt.mpr hk)]

theorem exec_bufWr_of_inside (hk : k.toNat < s.bufBytes) (d : Word) :
    exec (.bufWr k d) s = .next (s.withBuf (Memory.write s.buf k.toNat (d.extractLsb' 0 8))) := by
  rw [exec, execBufWr, if_pos hk]

theorem exec_bufWr_of_outside (hk : s.bufBytes ≤ k.toNat) (d : Word) : exec (.bufWr k d) s = .fault .busError := by
  rw [exec, execBufWr, if_neg (Nat.not_lt.mpr hk)]

end

/-! ### What a register reads -/

/-- A register whose reserved bits are zero reads as its plain contents (R150). -/
theorem State.readReg_eq_regValue {s : State} {r : Reg} (h : regValue s r &&& Reg.liveMask r = regValue s r) :
    s.readReg r = regValue s r := by
  cases r with
  | status | tcpctl => exact h
  | _ => rfl

/-- None of the values of STATUS has a reserved bit set (10_state.md R23). -/
theorem legalStatus_and_liveMask {v : Word} (h : legalStatus v = true) : v &&& Reg.liveMask .status = v := by
  simp only [legalStatus, Bool.or_eq_true, beq_iff_eq] at h
  obtain (((rfl | rfl) | rfl) | rfl) | rfl := h <;> rfl

/-- A word with no bit in the complement of a mask is its own masked value. -/
theorem and_eq_self_of_and_not_eq_zero {w : Nat} {x m : BitVec w} (h : x &&& ~~~m = 0) : x &&& m = x :=
  calc x &&& m
      = (x &&& m) ||| (x &&& ~~~m) := by rw [h]; exact BitVec.or_zero.symm
    _ = x &&& (m ||| ~~~m) := BitVec.and_or_distrib_left.symm
    _ = x := by rw [BitVec.or_not_self, BitVec.and_allOnes]

/-- Under the invariant a register has no reserved bit set, so it reads as its contents (R150). -/
theorem State.readReg_of_inv {s : State} (hs : s.Inv) (r : Reg) : s.readReg r = regValue s r := by
  obtain ⟨-, -, -, -, htcp, hst⟩ := hs
  cases r with
  | status => exact State.readReg_eq_regValue (legalStatus_and_liveMask hst)
  | tcpctl => exact State.readReg_eq_regValue (and_eq_self_of_and_not_eq_zero htcp)
  | _ => rfl

/-! ### What a register write stores -/

/-- A write mask of R155 is the register's live bits. -/
theorem liveMask_of_writeMask {r : Reg} {m : Word} (h : writeMask r = some m) : Reg.liveMask r = m := by
  cases r with
  | cmd | status | result | reserved _ => cases h
  | _ => exact Option.some.inj h

/-- A 16-bit register holds the low half of a word without loss. -/
theorem setWidth_setWidth_lowHalf (d : Word) :
    ((d &&& 0x0000FFFF#32).setWidth 16).setWidth 32 = d &&& 0x0000FFFF#32 := by
  have hlt : (d &&& 0x0000FFFF#32).toNat < 2 ^ 16 := Nat.and_lt_two_pow _ (by decide)
  exact BitVec.setWidth_setWidth_eq_self (BitVec.lt_def.mpr hlt)

/-- A register with a write mask holds the masked word after a write of it (R155). -/
theorem regValue_writeReg_same {r : Reg} {m : Word} (h : writeMask r = some m) (s : State) (d : Word) :
    regValue (s.writeReg r d) r = d &&& m := by
  rw [← liveMask_of_writeMask h]
  cases r with
  | cmd | status | result | reserved _ => cases h
  | offset | length | ipid => exact setWidth_setWidth_lowHalf d
  | srcAddr | dstAddr | ports | seq | acknum | tcpctl => rfl

theorem readReg_writeReg_same {r : Reg} {m : Word} (h : writeMask r = some m) (s : State) (d : Word) :
    (s.writeReg r d).readReg r = d &&& m := by
  have hval := regValue_writeReg_same h s d
  rw [State.readReg_eq_regValue, hval]
  rw [hval, liveMask_of_writeMask h, BitVec.and_assoc, BitVec.and_self]

/-! ### The step on a transaction -/

theorem step_of_idle {s : State} (hin : s.input = []) : step s = .next s := by
  simp only [step, fetch, hin]

section
variable {s : State} {x : Tx} {rest : List Input} (hin : s.input = .tx x :: rest)
include hin

theorem step_of_decode_ok {i : Instr} (h : decode s.bufBytes x = .ok i) : step s = exec i (s.withInput rest) := by
  simp only [step, fetch, hin, h]

theorem step_of_decode_error {e : DecodeError} (h : decode s.bufBytes x = .error e) : step s = .fault .busError := by
  simp only [step, fetch, hin, h]

end

/-- On a transaction that decodes, the step function of R159 runs what R61 makes of it. -/
theorem stepFunction_of_decodeTx {s : State} {x : Tx} {j : Instr} (h : decodeTx s.bufBytes x = .ok j) :
    stepFunction s x = exec j s := by
  have hfields : decodeTxFields s.bufBytes x = .ok j := by rw [← decodeTx_eq_decodeTxFields, h]
  rw [stepFunction, hfields]
  obtain ⟨-, r, -, ⟨-, rfl⟩ | ⟨-, rfl⟩⟩ | ⟨-, k, hk, -, ⟨-, rfl⟩ | ⟨-, rfl⟩⟩ := decodeTx_cases h
  · rfl
  · cases r <;> rfl
  · cases hb : Memory.read s.buf k.toNat with
    | none => simp only [hb, exec_bufRd_of_unwritten hk hb]
    | some b =>
      simp only [hb, exec_bufRd_of_read hk hb]
      rfl
  · exact (exec_bufWr_of_inside hk x.data).symm

/-- On any other transaction the step function of R159 is BUS_ERROR (R157). -/
theorem stepFunction_of_decodeTx_error {s : State} {x : Tx} {e : DecodeError}
    (h : decodeTx s.bufBytes x = .error e) : stepFunction s x = .fault .busError := by
  rw [stepFunction, ← decodeTx_eq_decodeTxFields, h]

/-- A transaction fails to decode only because R61 rejects it: a write to CMD always decodes (R62). -/
theorem decodeTx_of_decode_error {n : Nat} {x : Tx} {e : DecodeError} (h : decode n x = .error e) :
    decodeTx n x = .error e := by
  obtain ⟨_, _, -, -, hok⟩ | ⟨heq, -⟩ := decode_cases n x
  · cases hok.symm.trans h
  · exact heq ▸ h

/-! ### The model's own fields -/

/-- The pending actions and the buffer's size are the same, and at most one value was returned to the host. -/
abbrev LogsAtMostOneRead (s t : State) : Prop :=
  t.input = s.input ∧ t.bufBytes = s.bufBytes ∧ (t.reads = s.reads ∨ ∃ v, t.reads = s.reads ++ [v])

theorem LogsAtMostOneRead.of_sameParams {s t : State} (h : SameParams s t) : LogsAtMostOneRead s t :=
  have ⟨_, _, _, _, _, _, _, _, _, hsize, hinput, hreads⟩ := h
  ⟨hinput, hsize, .inl hreads⟩

theorem exec_logsAtMostOneRead {i : Instr} {s t : State} (h : exec i s = .next t) : LogsAtMostOneRead s t := by
  cases i with
  | csum | ipBuild | tcpBuild | tcpCsum | segBuild => exact .of_sameParams (command_sameParams rfl h)
  | regRd r =>
    rw [exec_regRd] at h
    cases h
    exact ⟨rfl, rfl, .inr ⟨_, rfl⟩⟩
  | regWr r d =>
    by_cases hr : r = .cmd
    · rw [hr, exec_regWr_cmd] at h
      exact .of_sameParams (runCommand_sameParams h)
    · rw [exec_regWr_of_ne_cmd hr] at h
      cases h
      exact ⟨State.writeReg_input s r d, State.writeReg_bufBytes s r d, .inl (State.writeReg_reads s r d)⟩
  | bufRd k =>
    obtain ⟨-, b, -, rfl⟩ := exec_bufRd_next h
    exact ⟨rfl, rfl, .inr ⟨_, rfl⟩⟩
  | bufWr k d =>
    obtain ⟨-, rfl⟩ := exec_bufWr_next h
    exact ⟨rfl, rfl, .inl rfl⟩

end Sys2Proof.Machine

namespace Sys2Proof

open Sys2Proof.Machine

/-- Settles O12: what R61 makes of a transaction decides both sides, and a command means what the write of CMD that
carries it means (`exec_of_decode`). -/
theorem stepIsTheStepFunction : Obligations.StepIsTheStepFunction := by
  intro s x rest hin
  change step s = stepFunction (s.withInput rest) x
  cases hdec : decode s.bufBytes x with
  | error e =>
    rw [step_of_decode_error hin hdec,
      stepFunction_of_decodeTx_error (s := s.withInput rest) (decodeTx_of_decode_error hdec)]
  | ok i =>
    obtain ⟨j, hj, hexec⟩ := exec_of_decode hdec
    rw [step_of_decode_ok hin hdec, hexec, stepFunction_of_decodeTx (s := s.withInput rest) hj]

/-- Settles O13, by the cases of a step; a transaction's instruction runs with its transaction already taken off. -/
theorem stepTakesOneActionAndKeepsTheSize : Obligations.StepTakesOneActionAndKeepsTheSize := by
  refine ⟨fun s t h => ?_, fun _ hin => step_of_idle hin⟩
  obtain ⟨hin, he⟩ | ⟨rest, hin, he⟩ | ⟨_, _, _, -, -, he⟩ | ⟨_, rest, i, hin, -, he⟩ := step_cases s
  · cases he.symm.trans h
    exact ⟨by rw [hin]; rfl, rfl, .inl rfl⟩
  · cases he.symm.trans h
    exact ⟨by rw [hin]; rfl, rfl, .inl rfl⟩
  · cases he.symm.trans h
  · rw [hin]
    exact exec_logsAtMostOneRead (he ▸ h)

/-- Settles O14: REG_RD logs the value read, which the invariant makes the plain contents (`State.readReg_of_inv`). -/
theorem registerReadReturnsItsValue : Obligations.RegisterReadReturnsItsValue :=
  fun s r => ⟨exec_regRd r s, fun hs => State.readReg_of_inv hs r⟩

/-- Settles O15: a register with a write mask is not CMD, so the write is a plain store of the masked word. -/
theorem registerWriteStoresTheMaskedValue : Obligations.RegisterWriteStoresTheMaskedValue := by
  intro s r d m hm
  have hr : r ≠ .cmd := by
    rintro rfl
    cases hm
  exact ⟨s.writeReg r d, exec_regWr_of_ne_cmd hr d s, readReg_writeReg_same hm s d, regValue_writeReg_same hm s d,
    fun q hq => regValue_writeReg_of_ne hq.symm s d, State.writeReg_buf s r d, State.writeReg_bufBytes s r d,
    State.writeReg_input s r d, State.writeReg_reads s r d⟩

/-- Settles O18: inside the buffer the next state is the one write of the low byte, and a write is read back there
alone. -/
theorem bufferWriteStoresTheLowByte : Obligations.BufferWriteStoresTheLowByte :=
  fun _ _ d => ⟨fun hk => ⟨_, exec_bufWr_of_inside hk d, rfl, Memory.read_write_same _ _ _,
    fun _ ha => Memory.read_write_other _ _ ha⟩, fun hk => exec_bufWr_of_outside hk d⟩

/-- Settles O20: a word runs its command or raises ILLEGAL_CMD (`runCommand_cases`), and neither reaches a parameter
register. -/
theorem commandWriteRunsTheCommand : Obligations.CommandWriteRunsTheCommand := by
  intro s d
  refine ⟨fun i hi => ?_, fun hill => ?_, fun t h => runCommand_sameParams h⟩
  · obtain ⟨c, hc, -, hrun⟩ | ⟨hill, -⟩ := runCommand_cases d s
    · cases hc.symm.trans hi
      exact hrun
    · cases hill.symm.trans hi
  · obtain ⟨c, hc, -, -⟩ | ⟨-, hrun⟩ := runCommand_cases d s
    · cases hc.symm.trans hill
    · exact hrun

/-- Settles O11: `step_of_decode_ok`. -/
theorem stepRunsTheDecodedInstruction : Obligations.StepRunsTheDecodedInstruction :=
  fun _ _ _ _ hin h => step_of_decode_ok hin h

/-- Settles O17: the read's three cases are whether the index lies in the buffer and whether its byte is written. -/
theorem bufferReadReturnsTheByte : Obligations.BufferReadReturnsTheByte :=
  fun _ _ => ⟨fun _ hk hb => exec_bufRd_of_read hk hb, exec_bufRd_of_unwritten, exec_bufRd_of_outside⟩

end Sys2Proof
end

section
/-! PROOF. When a command raises each of its errors and when a step stops (60_exceptions.md R170 to R172, R175):
a decoded instruction answers with a next state unless it reads a byte not written since reset. -/

namespace Sys2Proof.Machine

/-! ### A write of an illegal word to CMD -/

section
variable {d : Word} (hd : legalCommandWord d = false)
include hd

theorem decode_regWrite_illegal (n : Nat) : decode n (Tx.regWrite .cmd d) = .ok (.regWr .cmd d) :=
  decode_regWrite (by rw [Instr.wf, hd, Bool.not_false])

/-- An illegal word raises ILLEGAL_CMD and runs nothing (30_encoding.md R65). -/
theorem exec_regWr_cmd_illegal (s : State) :
    exec (.regWr .cmd d) s = .next (s.withStatus (statusError .illegalCmd)) := by
  have hill := decodeCmd_eq_error_iff.mpr hd
  obtain ⟨c, hc, -, -⟩ | ⟨-, hrun⟩ := runCommand_cases d s
  · cases hc.symm.trans hill
  · rw [exec_regWr_cmd, hrun, raiseError_eq]

end

/-! ### The unwritten byte an instruction reads -/

/-- The instruction reads a byte that is not written: BUF_RD its one byte, CSUM or TCP_CSUM a byte of a span that
lies inside the buffer (70_reset_and_hazards.md R192). -/
def ReadsUnwritten (s : State) (i : Instr) : Prop :=
  (∃ k, i = .bufRd k ∧ Memory.read s.buf k.toNat = none) ∨
    (readsSpan i = true ∧ s.opOffset + s.opLength ≤ s.bufBytes ∧
      ∃ k, k < s.opLength ∧ Memory.read s.buf (s.opOffset + k) = none)

/-- Only BUF_RD and the span commands read the buffer. -/
theorem not_readsUnwritten {s : State} {i : Instr} (hbuf : ∀ k, i ≠ .bufRd k) (hspan : readsSpan i = false) :
    ¬ ReadsUnwritten s i := by
  rintro (⟨k, hk, -⟩ | ⟨hr, -⟩)
  · exact hbuf k hk
  · cases hspan.symm.trans hr

theorem readsUnwritten_bufRd {s : State} {k : BufIndex} :
    ReadsUnwritten s (.bufRd k) ↔ Memory.read s.buf k.toNat = none := by
  simp [ReadsUnwritten, readsSpan]

/-- A command reads an unwritten byte exactly when its span passes the RANGE check and it has no RESULT. -/
theorem readsUnwritten_command {c : Instr} (hc : isCommand c = true) (s : State) :
    ReadsUnwritten s c ↔ s.opOffset + spanBytes s c ≤ s.bufBytes ∧ commandResult s c = none := by
  cases c with
  | csum | tcpCsum => simp [ReadsUnwritten, readsSpan, spanBytes, commandResult, Memory.readSpan_eq_none]
  | ipBuild | tcpBuild | segBuild => simp [ReadsUnwritten, readsSpan, commandResult]
  | regRd _ | regWr _ _ | bufRd _ | bufWr _ _ => cases hc

/-! ### An instruction answers unless it reads an unwritten byte -/

/-- The instruction stops on an unwritten byte, or it reads none and answers with a next state. -/
def StopsOrAnswers (s : State) (i : Instr) : Prop :=
  (ReadsUnwritten s i ∧ exec i s = .fault .unwrittenByte) ∨ (¬ ReadsUnwritten s i ∧ ∃ t, exec i s = .next t)

theorem command_stopsOrAnswers {c : Instr} (hc : isCommand c = true) (s : State) : StopsOrAnswers s c := by
  rw [StopsOrAnswers, readsUnwritten_command hc]
  obtain ⟨hout, he⟩ | ⟨rfl, -, -, he⟩ | ⟨hf, hr, he⟩ | ⟨-, -, r, hr, he⟩ := command_cases hc s
  · exact .inr ⟨fun ⟨hf, _⟩ => Nat.not_le.mpr hout hf, _, he⟩
  · exact .inr ⟨fun ⟨_, hnone⟩ => (by cases hnone), _, he⟩
  · exact .inl ⟨⟨hf, hr⟩, he⟩
  · exact .inr ⟨fun ⟨_, hnone⟩ => (by cases hr.symm.trans hnone), _, he⟩

theorem bufRd_stopsOrAnswers {k : BufIndex} {s : State} (hk : k.toNat < s.bufBytes) : StopsOrAnswers s (.bufRd k) := by
  rw [StopsOrAnswers, readsUnwritten_bufRd]
  cases hb : Memory.read s.buf k.toNat with
  | none => exact .inl ⟨rfl, exec_bufRd_of_unwritten hk hb⟩
  | some b => exact .inr ⟨nofun, _, exec_bufRd_of_read hk hb⟩

/-- A register write answers, unless it is the write of CMD that stands for a command. -/
theorem exec_regWr_answers {r : Reg} {d : Word} {n : Nat} (hwf : (Instr.regWr r d).wf n = true) (s : State) :
    ∃ t, exec (.regWr r d) s = .next t := by
  by_cases hr : r = .cmd
  · subst hr
    exact ⟨_, exec_regWr_cmd_illegal (by simpa [Instr.wf] using hwf) s⟩
  · exact ⟨_, exec_regWr_of_ne_cmd hr d s⟩

theorem exec_stopsOrAnswers {i : Instr} {s : State} (hwf : i.wf s.bufBytes = true) : StopsOrAnswers s i := by
  cases i with
  | csum | ipBuild | tcpBuild | tcpCsum | segBuild => exact command_stopsOrAnswers rfl s
  | regRd r => exact .inr ⟨not_readsUnwritten nofun rfl, _, exec_regRd r s⟩
  | regWr r d => exact .inr ⟨not_readsUnwritten nofun rfl, exec_regWr_answers hwf s⟩
  | bufRd k => exact bufRd_stopsOrAnswers (of_decide_eq_true hwf)
  | bufWr k d => exact .inr ⟨not_readsUnwritten nofun rfl, _, exec_bufWr_of_inside (of_decide_eq_true hwf) d⟩

/-- What decodes is well formed, and taking its transaction off the pending actions moves no operand or byte. -/
theorem decoded_stopsOrAnswers {s : State} {x : Tx} {i : Instr} (h : decode s.bufBytes x = .ok i) (rest : List Input) :
    StopsOrAnswers (s.withInput rest) i :=
  have ⟨hwf, _⟩ := encodeOfDecodeIsTheTransaction s.bufBytes x i h
  exec_stopsOrAnswers hwf

/-! ### What a step answers -/

/-- Every answer of a step, with what decides it. -/
theorem step_answers (s : State) :
    (∃ t, step s = .next t) ∨
      (∃ x rest, s.input = .tx x :: rest ∧ badTx s.bufBytes x = true ∧ step s = .fault .busError) ∨
      ∃ x rest i, s.input = .tx x :: rest ∧ decode s.bufBytes x = .ok i ∧ ReadsUnwritten s i ∧
        step s = .fault .unwrittenByte := by
  obtain ⟨-, he⟩ | ⟨_, -, he⟩ | ⟨x, rest, e, hin, hdec, he⟩ | ⟨x, rest, i, hin, hdec, he⟩ := step_cases s
  · exact .inl ⟨_, he⟩
  · exact .inl ⟨_, he⟩
  · have hbad : badTx s.bufBytes x = true := by
      by_contra hgood
      obtain ⟨i, hi⟩ := (badTransactionsAreBusErrors s.bufBytes x).2 (Bool.eq_false_of_not_eq_true hgood)
      cases hdec.symm.trans hi
    exact .inr (.inl ⟨x, rest, hin, hbad, he⟩)
  · obtain ⟨hun, hstop⟩ | ⟨-, t, hans⟩ := decoded_stopsOrAnswers hdec rest
    · exact .inr (.inr ⟨x, rest, i, hin, hdec, hun, he.trans hstop⟩)
    · exact .inl ⟨t, he.trans hans⟩

theorem step_eq_busError_iff (s : State) :
    step s = .fault .busError ↔ ∃ x rest, s.input = .tx x :: rest ∧ badTx s.bufBytes x = true := by
  constructor
  · intro h
    obtain ⟨_, he⟩ | ⟨x, rest, hin, hbad, -⟩ | ⟨_, _, _, -, -, -, he⟩ := step_answers s
    · cases he.symm.trans h
    · exact ⟨x, rest, hin, hbad⟩
    · cases he.symm.trans h
  · rintro ⟨x, rest, hin, hbad⟩
    exact step_of_decode_error hin ((badTransactionsAreBusErrors s.bufBytes x).1 hbad)

theorem step_eq_unwrittenByte_iff (s : State) :
    step s = .fault .unwrittenByte ↔
      ∃ x rest i, s.input = .tx x :: rest ∧ decode s.bufBytes x = .ok i ∧ ReadsUnwritten s i := by
  constructor
  · intro h
    obtain ⟨_, he⟩ | ⟨_, _, -, -, he⟩ | ⟨x, rest, i, hin, hdec, hun, -⟩ := step_answers s
    · cases he.symm.trans h
    · cases he.symm.trans h
    · exact ⟨x, rest, i, hin, hdec, hun⟩
  · rintro ⟨x, rest, i, hin, hdec, hun⟩
    rw [step_of_decode_ok hin hdec]
    obtain ⟨-, hstop⟩ | ⟨hnot, -⟩ := decoded_stopsOrAnswers hdec rest
    · exact hstop
    · exact absurd hun hnot

theorem step_ne_refused (s : State) (r : Refusal) : step s ≠ .refused r := by
  intro h
  obtain ⟨_, he⟩ | ⟨_, _, -, -, he⟩ | ⟨_, _, _, -, -, -, he⟩ := step_answers s <;> cases he.symm.trans h

end Sys2Proof.Machine

namespace Sys2Proof

open Sys2Proof.Machine

/-- Settles O47: the span and then LENGTH decide a command's answer (`command_next`), and every word outside 1 to 5
is illegal. -/
theorem commandErrorsExactly : Obligations.CommandErrorsExactly := by
  refine ⟨fun s c hc => ⟨command_range hc, ?_, ?_⟩, fun s d hd => ?_⟩
  · rintro hf rfl hovf
    exact execIpBuild_lengthOvf hf hovf
  · intro hf hn t h
    obtain ⟨hout, -⟩ | ⟨rfl, -, hovf, -⟩ | ⟨-, _, rfl⟩ := command_next hc h
    · exact absurd hf (Nat.not_le.mpr hout)
    · exact absurd (hn rfl) (Nat.not_le.mpr hovf)
    · rfl
  · have hill : legalCommandWord d = false := by
      rw [← Bool.not_eq_true, legalCommandWord_iff]
      omega
    exact ⟨decode_regWrite_illegal hill s.bufBytes, exec_regWr_cmd_illegal hill s⟩

/-- Settles O54: a step stops for a transaction on R61's list, for an instruction that reads an unwritten byte, and
for nothing else (`step_answers`). -/
theorem stepFaultsExactly : Obligations.StepFaultsExactly :=
  fun s => ⟨step_eq_busError_iff s, step_eq_unwrittenByte_iff s, step_ne_refused s⟩

end Sys2Proof
end

section
/-! PROOF. The reset input, and the commands that would read a byte no one has written since
(70_reset_and_hazards.md R190, R192, R193). -/

namespace Sys2Proof.Machine

/-! ### What a reset leaves -/

theorem step_of_reset {s : State} {rest : List Input} (hin : s.input = .reset :: rest) :
    step s = .next (applyReset (s.withInput rest)) := by
  simp only [step, fetch, hin]

/-- A read looks at neither the pending actions nor the values read, all that a reset keeps beside the size. -/
@[simp] theorem State.readReg_applyReset (s : State) (r : Reg) : (applyReset s).readReg r = 0 :=
  State.readReg_resetOf s.bufBytes r

/-- A reset forgets everything but the size and the model's own two fields. -/
theorem applyReset_congr {s t : State} (hsize : t.bufBytes = s.bufBytes) (hin : t.input = s.input)
    (hreads : t.reads = s.reads) : applyReset t = applyReset s := by
  rw [applyReset, applyReset, hsize, hin, hreads]

end Sys2Proof.Machine

namespace Sys2Proof

open Sys2Proof.Machine

/-- Settles O2: the step is `applyReset` on the later actions (`step_of_reset`). -/
theorem resetInputClearsEverything : Obligations.ResetInputClearsEverything := fun s rest hin =>
  ⟨applyReset (s.withInput rest), step_of_reset hin, State.readReg_applyReset _, Memory.read_nil, rfl, rfl, rfl, rfl, rfl⟩

/-- Settles O3: what a command changes (`command_sameParams`), a reset forgets (`applyReset_congr`). -/
theorem resetInPlaceOfCommandIsResetAfterIt : Obligations.ResetInPlaceOfCommandIsResetAfterIt := by
  intro c s t hc h
  obtain ⟨-, -, -, -, -, -, -, -, -, hsize, hin, hreads⟩ := command_sameParams hc h
  exact applyReset_congr hsize hin hreads

/-- Settles O33: a span with an unwritten byte has no reading (`Memory.readSpan_eq_none`). -/
theorem unwrittenSpanByteFaults : Obligations.UnwrittenSpanByteFaults := by
  intro s k hf hk hr
  have hb : Memory.readSpan s.buf s.opOffset s.opLength = none := Memory.readSpan_eq_none.mpr ⟨k, hk, hr⟩
  exact ⟨execCsum_unwritten hf hb, execTcpCsum_unwritten hf hb⟩

end Sys2Proof
end
